-- ==== Sys2Proof/Word.lean ====
section
/-! DEFINITION. The widths of CORE's values (spec/00_scope.md R8, R10, R11). All are unsigned. -/

namespace Sys2Proof

/-- A memory byte, a register V[i], a timer, SP (R8). -/
abbrev Byte := BitVec 8

/-- An instruction word, PC, I, a stack entry (R8). -/
abbrev Word := BitVec 16

/-- A 4-bit field of an instruction word (spec/30_encoding.md R71). -/
abbrev Nibble := BitVec 4

/-- The 12-bit address field nnn (R71). -/
abbrev Addr := BitVec 12

/-- A register index, 0 to 15: the fields x and y (spec/10_state.md R20, spec/30_encoding.md R73). -/
abbrev Reg := Fin 16

end Sys2Proof
end

