-- ==== Sys2Proof/Config.lean ====
section
/-! DEFINITION. The parameters the spec leaves open and the model leaves free (spec/00_scope.md R9). Neither has a
body, so no proof can see a value of it. The parameter FONT has a default in the spec (D14): it stands in
Machine/Font.lean, where a later repair can mend it, and `resetWith` of Machine/Interface.lean takes any FONT. The
parameter SEED is the field `rngSeed` of State. -/

namespace Sys2Proof

/-- RAND, the byte the random source returns (spec/43_alu.md R164, spec/40_cycle.md R112), for a seed and the number of
draws taken before. A FREE VALUE: nothing constrains it (log 1). -/
opaque Config.randomByte (seed draws : Nat) : Byte

/-- CYCLE_DELAY_MS, the host's least delay between Steps (R9, spec/70_reset_and_hazards.md R255). No rule reads it, and
so no definition of the model does (log 9). -/
opaque Config.cycleDelayMs : Nat

end Sys2Proof
end

