-- ==== Sys2Proof/Syntax.lean ====
section
/-! DEFINITION. The instructions: one constructor per row of spec/opcode_table.json, in the order of
spec/30_encoding.md R76. Bits an instruction encodes but does not use are carried (log 8), so that a word and
its instruction hold the same information. -/

namespace Sys2Proof

/-- The 34 instructions of R76 and the unmapped fallback (R77). -/
inductive Instr where
  /-- 00E0 CLS (R120). -/
  | cls
  /-- 00EE RET (R130). -/
  | ret
  /-- 1nnn JP nnn (R131). -/
  | jp (nnn : Addr)
  /-- 2nnn CALL nnn (R132). -/
  | call (nnn : Addr)
  /-- 3xkk SE Vx, kk (R133). -/
  | seImm (x : Reg) (kk : Byte)
  /-- 4xkk SNE Vx, kk (R134). -/
  | sneImm (x : Reg) (kk : Byte)
  /-- 5xy0 SE Vx, Vy (R135); `low` is the low nibble, which is not decoded (R80). -/
  | seReg (x y : Reg) (low : Nibble)
  /-- 6xkk LD Vx, kk (R150). -/
  | ldImm (x : Reg) (kk : Byte)
  /-- 7xkk ADD Vx, kk (R151). -/
  | addImm (x : Reg) (kk : Byte)
  /-- 8xy0 LD Vx, Vy (R152). -/
  | ldReg (x y : Reg)
  /-- 8xy1 OR Vx, Vy (R153). -/
  | or (x y : Reg)
  /-- 8xy2 AND Vx, Vy (R154). -/
  | and (x y : Reg)
  /-- 8xy3 XOR Vx, Vy (R155). -/
  | xor (x y : Reg)
  /-- 8xy4 ADD Vx, Vy (R156). -/
  | addReg (x y : Reg)
  /-- 8xy5 SUB Vx, Vy (R157). -/
  | sub (x y : Reg)
  /-- 8xy6 SHR Vx (R158); y is not read. -/
  | shr (x y : Reg)
  /-- 8xy7 SUBN Vx, Vy (R159). -/
  | subn (x y : Reg)
  /-- 8xyE SHL Vx (R160); y is not read. -/
  | shl (x y : Reg)
  /-- 9xy0 SNE Vx, Vy (R136); `low` is the low nibble, which is not decoded (R80). -/
  | sneReg (x y : Reg) (low : Nibble)
  /-- Annn LD I, nnn (R170). -/
  | ldI (nnn : Addr)
  /-- Bnnn JP V0, nnn (R137). -/
  | jpV0 (nnn : Addr)
  /-- Cxkk RND Vx, kk (R161). -/
  | rnd (x : Reg) (kk : Byte)
  /-- Dxyn DRW Vx, Vy, n (R121). -/
  | drw (x y : Reg) (n : Nibble)
  /-- Ex9E SKP Vx (R190). -/
  | skp (x : Reg)
  /-- ExA1 SKNP Vx (R191). -/
  | sknp (x : Reg)
  /-- Fx07 LD Vx, DT (R192). -/
  | ldVxDt (x : Reg)
  /-- Fx0A LD Vx, K (R193). -/
  | ldVxK (x : Reg)
  /-- Fx15 LD DT, Vx (R194). -/
  | ldDtVx (x : Reg)
  /-- Fx18 LD ST, Vx (R195). -/
  | ldStVx (x : Reg)
  /-- Fx1E ADD I, Vx (R171). -/
  | addIVx (x : Reg)
  /-- Fx29 LD F, Vx (R172). -/
  | ldFVx (x : Reg)
  /-- Fx33 LD B, Vx (R173). -/
  | ldBVx (x : Reg)
  /-- Fx55 LD [I], Vx (R174). -/
  | ldMemVx (x : Reg)
  /-- Fx65 LD Vx, [I] (R175). -/
  | ldVxMem (x : Reg)
  /-- Any word that matches no row above (R77, R110). -/
  | unmapped (w : Word)
  deriving DecidableEq, Repr

end Sys2Proof
end

