-- ==== Sys2Proof/WellFormed.lean ====
section
/-! DEFINITION. Which instructions have an encoding of their own. Register indices, immediates and addresses are in
range by their types; the one check left is that the word of an unmapped instruction is an unmapped word,
written here from the table of spec/30_encoding.md R77, not from the decoder. -/

namespace Sys2Proof

/-- The unmapped words, family by family (R77, R78, R79): family 0 but for two words, seven low nibbles of family 8, family E
but for two low bytes, family F but for nine low bytes. -/
def isUnmappedWord (w : Word) : Bool :=
  let family := w.toNat / 0x1000
  let lowByte := w.toNat % 0x100
  if family = 0x0 then !(([0x00E0, 0x00EE] : List Nat).contains w.toNat)
  else if family = 0x8 then [0x8, 0x9, 0xA, 0xB, 0xC, 0xD, 0xF].contains (w.toNat % 0x10)
  else if family = 0xE then !(([0x9E, 0xA1] : List Nat).contains lowByte)
  else if family = 0xF then !(([0x07, 0x0A, 0x15, 0x18, 0x1E, 0x29, 0x33, 0x55, 0x65] : List Nat).contains lowByte)
  else false

/-- The check: an instruction that a word stands for. -/
def Instr.wellFormed : Instr → Bool
  | .unmapped w => isUnmappedWord w
  | .cls | .ret | .jp _ | .call _ | .seImm _ _ | .sneImm _ _ | .seReg _ _ _ | .ldImm _ _ | .addImm _ _
  | .ldReg _ _ | .or _ _ | .and _ _ | .xor _ _ | .addReg _ _ | .sub _ _ | .shr _ _ | .subn _ _ | .shl _ _
  | .sneReg _ _ _ | .ldI _ | .jpV0 _ | .rnd _ _ | .drw _ _ _ | .skp _ | .sknp _ | .ldVxDt _ | .ldVxK _
  | .ldDtVx _ | .ldStVx _ | .addIVx _ | .ldFVx _ | .ldBVx _ | .ldMemVx _ | .ldVxMem _ => true

end Sys2Proof
end

