-- ==== Sys2Proof/Decode.lean ====
section
/-! DEFINITION. The decoder (spec/30_encoding.md R70 to R80), total on words, and after it the encoder, written
from the formats of R72, and the opcode table as rows of mask and value. -/

namespace Sys2Proof

/-! ### The fields of a word (R71) -/

/-- f = w[15:12], the family. -/
def Word.family (w : Word) : Nibble := w.extractLsb' 12 4

/-- x = w[11:8]. -/
def Word.x (w : Word) : Reg := (w.extractLsb' 8 4).toFin

/-- y = w[7:4]. -/
def Word.y (w : Word) : Reg := (w.extractLsb' 4 4).toFin

/-- n = w[3:0]. -/
def Word.n (w : Word) : Nibble := w.extractLsb' 0 4

/-- kk = w[7:0]. -/
def Word.kk (w : Word) : Byte := w.extractLsb' 0 8

/-- nnn = w[11:0]. -/
def Word.nnn (w : Word) : Addr := w.extractLsb' 0 12

/-! ### Decoding (R74, R75) -/

/-- Family 0 compares the whole word (R78). -/
def decodeFamily0 (w : Word) : Instr :=
  if w = 0x00E0 then .cls
  else if w = 0x00EE then .ret
  else .unmapped w

/-- Family 8: the low nibble selects (R75). -/
def decodeFamily8 (w : Word) : Instr :=
  match w.n.toNat with
  | 0x0 => .ldReg w.x w.y
  | 0x1 => .or w.x w.y
  | 0x2 => .and w.x w.y
  | 0x3 => .xor w.x w.y
  | 0x4 => .addReg w.x w.y
  | 0x5 => .sub w.x w.y
  | 0x6 => .shr w.x w.y
  | 0x7 => .subn w.x w.y
  | 0xE => .shl w.x w.y
  | _ => .unmapped w

/-- Family E: the low byte selects (R79). -/
def decodeFamilyE (w : Word) : Instr :=
  match w.kk.toNat with
  | 0x9E => .skp w.x
  | 0xA1 => .sknp w.x
  | _ => .unmapped w

/-- Family F: the low byte selects (R75). -/
def decodeFamilyF (w : Word) : Instr :=
  match w.kk.toNat with
  | 0x07 => .ldVxDt w.x
  | 0x0A => .ldVxK w.x
  | 0x15 => .ldDtVx w.x
  | 0x18 => .ldStVx w.x
  | 0x1E => .addIVx w.x
  | 0x29 => .ldFVx w.x
  | 0x33 => .ldBVx w.x
  | 0x55 => .ldMemVx w.x
  | 0x65 => .ldVxMem w.x
  | _ => .unmapped w

/-- Decode(w) of R75: every word decodes to exactly one instruction. -/
def decodeWord (w : Word) : Instr :=
  match w.family.toNat with
  | 0x0 => decodeFamily0 w
  | 0x1 => .jp w.nnn
  | 0x2 => .call w.nnn
  | 0x3 => .seImm w.x w.kk
  | 0x4 => .sneImm w.x w.kk
  | 0x5 => .seReg w.x w.y w.n
  | 0x6 => .ldImm w.x w.kk
  | 0x7 => .addImm w.x w.kk
  | 0x8 => decodeFamily8 w
  | 0x9 => .sneReg w.x w.y w.n
  | 0xA => .ldI w.nnn
  | 0xB => .jpV0 w.nnn
  | 0xC => .rnd w.x w.kk
  | 0xD => .drw w.x w.y w.n
  | 0xE => decodeFamilyE w
  | _ => decodeFamilyF w

/-- Why a sequence of bytes is no instruction. -/
inductive DecodeError where
  /-- Fewer than the two bytes of an instruction word are left (R70). -/
  | needsTwoBytes
  deriving DecidableEq, Repr

/-- Two bytes as a big-endian word, high byte first (spec/20_memory.md R52). -/
def bytesToWord (high low : Byte) : Word := high ++ low

/-- The two bytes of a word, high byte first (R52). -/
def wordBytes (w : Word) : List Byte := [w.extractLsb' 8 8, w.extractLsb' 0 8]

/-- The instruction at the head of a sequence of bytes, and the bytes after it (R70). -/
def decode : List Byte → Except DecodeError (Instr × List Byte)
  | high :: low :: rest => .ok (decodeWord (bytesToWord high low), rest)
  | [_] => .error .needsTwoBytes
  | [] => .error .needsTwoBytes

/-! ### Encoding (R72) -/

/-- Format A: family and 12-bit address. -/
def encodeA (f : Nibble) (nnn : Addr) : Word := f ++ nnn

/-- Formats XK and XS: family, register, low byte. -/
def encodeXK (f : Nibble) (x : Reg) (kk : Byte) : Word := f ++ BitVec.ofFin (w := 4) x ++ kk

/-- Formats XY and XYN: family, two registers, low nibble. -/
def encodeXYN (f : Nibble) (x y : Reg) (n : Nibble) : Word :=
  f ++ BitVec.ofFin (w := 4) x ++ BitVec.ofFin (w := 4) y ++ n

/-- The word of an instruction (R72, R76). -/
def encode : Instr → Word
  | .cls => 0x00E0
  | .ret => 0x00EE
  | .jp nnn => encodeA 0x1 nnn
  | .call nnn => encodeA 0x2 nnn
  | .seImm x kk => encodeXK 0x3 x kk
  | .sneImm x kk => encodeXK 0x4 x kk
  | .seReg x y low => encodeXYN 0x5 x y low
  | .ldImm x kk => encodeXK 0x6 x kk
  | .addImm x kk => encodeXK 0x7 x kk
  | .ldReg x y => encodeXYN 0x8 x y 0x0
  | .or x y => encodeXYN 0x8 x y 0x1
  | .and x y => encodeXYN 0x8 x y 0x2
  | .xor x y => encodeXYN 0x8 x y 0x3
  | .addReg x y => encodeXYN 0x8 x y 0x4
  | .sub x y => encodeXYN 0x8 x y 0x5
  | .shr x y => encodeXYN 0x8 x y 0x6
  | .subn x y => encodeXYN 0x8 x y 0x7
  | .shl x y => encodeXYN 0x8 x y 0xE
  | .sneReg x y low => encodeXYN 0x9 x y low
  | .ldI nnn => encodeA 0xA nnn
  | .jpV0 nnn => encodeA 0xB nnn
  | .rnd x kk => encodeXK 0xC x kk
  | .drw x y n => encodeXYN 0xD x y n
  | .skp x => encodeXK 0xE x 0x9E
  | .sknp x => encodeXK 0xE x 0xA1
  | .ldVxDt x => encodeXK 0xF x 0x07
  | .ldVxK x => encodeXK 0xF x 0x0A
  | .ldDtVx x => encodeXK 0xF x 0x15
  | .ldStVx x => encodeXK 0xF x 0x18
  | .addIVx x => encodeXK 0xF x 0x1E
  | .ldFVx x => encodeXK 0xF x 0x29
  | .ldBVx x => encodeXK 0xF x 0x33
  | .ldMemVx x => encodeXK 0xF x 0x55
  | .ldVxMem x => encodeXK 0xF x 0x65
  | .unmapped w => w

/-- The bytes of an instruction as memory holds them (R52). -/
def encodeBytes (i : Instr) : List Byte := wordBytes (encode i)

/-! ### The opcode table (spec/opcode_table.json) -/

/-- The mnemonic of an instruction, as spec/opcode_table.json spells it. -/
def Instr.mnemonic : Instr → String
  | .cls => "CLS"
  | .ret => "RET"
  | .jp _ => "JP"
  | .call _ => "CALL"
  | .seImm _ _ => "SE_imm"
  | .sneImm _ _ => "SNE_imm"
  | .seReg _ _ _ => "SE_reg"
  | .ldImm _ _ => "LD_imm"
  | .addImm _ _ => "ADD_imm"
  | .ldReg _ _ => "LD_reg"
  | .or _ _ => "OR"
  | .and _ _ => "AND"
  | .xor _ _ => "XOR"
  | .addReg _ _ => "ADD_reg"
  | .sub _ _ => "SUB"
  | .shr _ _ => "SHR"
  | .subn _ _ => "SUBN"
  | .shl _ _ => "SHL"
  | .sneReg _ _ _ => "SNE_reg"
  | .ldI _ => "LD_I"
  | .jpV0 _ => "JP_V0"
  | .rnd _ _ => "RND"
  | .drw _ _ _ => "DRW"
  | .skp _ => "SKP"
  | .sknp _ => "SKNP"
  | .ldVxDt _ => "LD_Vx_DT"
  | .ldVxK _ => "LD_Vx_K"
  | .ldDtVx _ => "LD_DT_Vx"
  | .ldStVx _ => "LD_ST_Vx"
  | .addIVx _ => "ADD_I_Vx"
  | .ldFVx _ => "LD_F_Vx"
  | .ldBVx _ => "LD_B_Vx"
  | .ldMemVx _ => "LD_MEM_Vx"
  | .ldVxMem _ => "LD_Vx_MEM"
  | .unmapped _ => "UNMAPPED"

/-- A row of the opcode table: a word w is the row's when w &&& mask = value. -/
structure OpcodeRow where
  mnemonic : String
  value : Word
  mask : Word
  deriving DecidableEq, Repr

/-- The rows of families 0 to 7. -/
def opcodeRowsLow : List OpcodeRow :=
  [⟨"CLS", 0x00E0, 0xFFFF⟩, ⟨"RET", 0x00EE, 0xFFFF⟩, ⟨"JP", 0x1000, 0xF000⟩, ⟨"CALL", 0x2000, 0xF000⟩,
   ⟨"SE_imm", 0x3000, 0xF000⟩, ⟨"SNE_imm", 0x4000, 0xF000⟩, ⟨"SE_reg", 0x5000, 0xF000⟩,
   ⟨"LD_imm", 0x6000, 0xF000⟩, ⟨"ADD_imm", 0x7000, 0xF000⟩]

/-- The rows of families 8 to D. -/
def opcodeRowsMiddle : List OpcodeRow :=
  [⟨"LD_reg", 0x8000, 0xF00F⟩, ⟨"OR", 0x8001, 0xF00F⟩, ⟨"AND", 0x8002, 0xF00F⟩, ⟨"XOR", 0x8003, 0xF00F⟩,
   ⟨"ADD_reg", 0x8004, 0xF00F⟩, ⟨"SUB", 0x8005, 0xF00F⟩, ⟨"SHR", 0x8006, 0xF00F⟩, ⟨"SUBN", 0x8007, 0xF00F⟩,
   ⟨"SHL", 0x800E, 0xF00F⟩, ⟨"SNE_reg", 0x9000, 0xF000⟩, ⟨"LD_I", 0xA000, 0xF000⟩,
   ⟨"JP_V0", 0xB000, 0xF000⟩, ⟨"RND", 0xC000, 0xF000⟩, ⟨"DRW", 0xD000, 0xF000⟩]

/-- The rows of families E and F. -/
def opcodeRowsHigh : List OpcodeRow :=
  [⟨"SKP", 0xE09E, 0xF0FF⟩, ⟨"SKNP", 0xE0A1, 0xF0FF⟩, ⟨"LD_Vx_DT", 0xF007, 0xF0FF⟩,
   ⟨"LD_Vx_K", 0xF00A, 0xF0FF⟩, ⟨"LD_DT_Vx", 0xF015, 0xF0FF⟩, ⟨"LD_ST_Vx", 0xF018, 0xF0FF⟩,
   ⟨"ADD_I_Vx", 0xF01E, 0xF0FF⟩, ⟨"LD_F_Vx", 0xF029, 0xF0FF⟩, ⟨"LD_B_Vx", 0xF033, 0xF0FF⟩,
   ⟨"LD_MEM_Vx", 0xF055, 0xF0FF⟩, ⟨"LD_Vx_MEM", 0xF065, 0xF0FF⟩]

/-- The 34 rows of spec/opcode_table.json that name an instruction, with their match and mask. -/
def opcodeTable : List OpcodeRow := opcodeRowsLow ++ opcodeRowsMiddle ++ opcodeRowsHigh

/-- Does the word match the row? -/
def OpcodeRow.fits (r : OpcodeRow) (w : Word) : Bool := w &&& r.mask == r.value

/-! ### The host's question about the table -/

/-- The instruction the decoder reads from an instruction whose bits are w (every bit above nbits is 0). Every
instruction is one word of 16 bits (R70), so a longer one is refused. -/
def decodeTableWord (nbits w : Nat) : Option Instr :=
  if nbits ≤ 16 then
    match decode (wordBytes (BitVec.ofNat 16 (w % 2 ^ nbits))) with
    | .ok (i, _) => some i
    | .error _ => none
  else none

end Sys2Proof
end

