-- ==== Sys2Proof/Machine/State.lean ====
section
/-! DEFINITION. The state of CORE as plain data (spec/10_state.md), why a step can stop, and the state after
reset (R43). -/

namespace Sys2Proof.Machine

/-- MEM (spec/20_memory.md R50): the bytes that differ from what an unlisted address reads as, by rising address
(`Memory.wf`, `Memory.resetByte`; log 6). -/
abbrev Memory := List Host.Cell

/-- FB (R33): 32 rows, top first, of 64 pixels, left first; true is on. -/
abbrev FrameBuffer := Vector (Vector Bool 64) 32

/-- The fault codes of spec/60_exceptions.md R211 but for NONE, which is the code 0. -/
inductive FaultCode where
  /-- 1: PC below 0x200 or above 0xFFE at the fetch (R102). -/
  | pcOutOfRange
  /-- 2: PC odd at the fetch (R102). -/
  | pcMisaligned
  /-- 3: 2nnn with SP = 16 (R132). -/
  | stackOverflow
  /-- 4: 00EE with SP = 0 (R130). -/
  | stackUnderflow
  /-- 5: a data access at or above 4096 (R54, R55). -/
  | memOutOfRange
  /-- 6: a data write below 0x200 (R55). -/
  | reservedWrite
  /-- 7: Ex9E or ExA1 with V[x] above 15 (R190, R191). -/
  | keyOutOfRange
  deriving DecidableEq, Repr

/-- The fault record (R36). -/
structure FaultRecord where
  /-- FAULT_CODE; 0 means that no fault is recorded. -/
  code : BitVec 8
  /-- FAULT_PC, the fetch address of the faulting Step. -/
  pc : BitVec 16
  /-- FAULT_OPCODE, the fetched word; 0 for codes 1 and 2. -/
  opcode : BitVec 16
  /-- FAULT_INFO, the code's detail. -/
  info : BitVec 17
  deriving DecidableEq, Repr

/-- The whole state of CORE (10_state.md, State summary), and three fields of the model's own for RAND (log 1). -/
structure State where
  /-- V[0..15] (R20); V[15] is VF (R21, R39). -/
  v : Vector Byte 16
  /-- I (R27). -/
  i : Word
  /-- PC (R24). In the execute phase it holds the fetch address plus 2. -/
  pc : Word
  /-- SP (R28), the number of stack entries in use; legal values 0 to 16. -/
  sp : Byte
  /-- STACK[0..15] (R28, R29). -/
  stack : Vector Word 16
  /-- DT (R30). -/
  dt : Byte
  /-- ST (R31). -/
  st : Byte
  /-- KEY[0..15] (R32); true is pressed. -/
  key : Vector Bool 16
  /-- FB (R33). -/
  fb : FrameBuffer
  /-- MEM (R35). -/
  mem : Memory
  /-- The fault record (R36). -/
  fault : FaultRecord
  /-- opcode (R38), the most recently fetched word; not observable (log 5). -/
  opcode : Word
  /-- The model's own: SEED, the seed of the random source (00_scope.md R9; log 1). -/
  rngSeed : Nat
  /-- The model's own: how many draws were taken since reset (log 1). -/
  rngDraws : Nat
  /-- The model's own: the argument of the host's Step(RAND) for the coming Step, if the host named one (R40; log 1). -/
  randArg : Option Byte
  deriving DecidableEq, Repr

/-- Why the machine stops with no next state. CORE's own faults (R211) are NOT here: a Step that faults answers
a next state that holds the fault record (log 2). -/
inductive Fault where
  /-- Raised by 2nnn and 00EE when SP holds 17 to 255, which the spec calls no legal value (R28, R44) and gives no effect.
  Safe: no run from reset reaches such an SP, and the model stops rather than go on (log 3). -/
  | illegalStackPointer (sp : Byte)
  deriving DecidableEq, Repr

/-- Why an instruction is refused. -/
inductive Refusal where
  /-- An instruction that has no meaning yet, by its mnemonic. Safe. No arm of exec answers it: every instruction has
  its meaning. -/
  | notModelled (mnemonic : String)
  deriving DecidableEq, Repr

/-- The outcome of a step or of an instruction. -/
abbrev Outcome := Host.Outcome State Fault Refusal

/-- The state after Reset() (R43, spec/70_reset_and_hazards.md R240, R241). Memory lists nothing: what an unlisted address
reads as is its reset content, the font included (`Memory.resetByte`). `opcode` (log 5) and the model's own three
fields (log 1) have no reset value in the spec. -/
def State.reset : State where
  v := Vector.replicate 16 0
  i := 0
  pc := 0x200
  sp := 0
  stack := Vector.replicate 16 0
  dt := 0
  st := 0
  key := Vector.replicate 16 false
  fb := Vector.replicate 32 (Vector.replicate 64 false)
  mem := []
  fault := ⟨0, 0, 0, 0⟩
  opcode := 0
  rngSeed := 0
  rngDraws := 0
  randArg := none

end Sys2Proof.Machine
end

