-- ==== Sys2Proof/Machine/Font.lean ====
section
/-! DEFINITION. The parameter FONT (spec/00_scope.md R9) at the default the spec names, and what MEM holds after reset
(spec/20_memory.md R58). -/

namespace Sys2Proof.Machine

/-- FONT, glyphs 0 to 7, five bytes each: the default of spec/92_eei_decisions.md D14, which the spec itself takes from
general knowledge (PRESUMED, log 4). -/
def fontLow : List Byte :=
  [0xF0, 0x90, 0x90, 0x90, 0xF0] ++ [0x20, 0x60, 0x20, 0x20, 0x70] ++ [0xF0, 0x10, 0xF0, 0x80, 0xF0] ++
  [0xF0, 0x10, 0xF0, 0x10, 0xF0] ++ [0x90, 0x90, 0xF0, 0x10, 0x10] ++ [0xF0, 0x80, 0xF0, 0x10, 0xF0] ++
  [0xF0, 0x80, 0xF0, 0x90, 0xF0] ++ [0xF0, 0x10, 0x20, 0x40, 0x40]

/-- FONT, glyphs 8 to F (D14; PRESUMED, log 4). -/
def fontHigh : List Byte :=
  [0xF0, 0x90, 0xF0, 0x90, 0xF0] ++ [0xF0, 0x90, 0xF0, 0x10, 0xF0] ++ [0xF0, 0x90, 0xF0, 0x90, 0x90] ++
  [0xE0, 0x90, 0xE0, 0x90, 0xE0] ++ [0xF0, 0x80, 0x80, 0x80, 0xF0] ++ [0xE0, 0x90, 0x90, 0x90, 0xE0] ++
  [0xF0, 0x80, 0xF0, 0x80, 0xF0] ++ [0xF0, 0x80, 0xF0, 0x80, 0x80]

/-- The 80 bytes of FONT at the default of D14. -/
def fontDefault : List Byte := fontLow ++ fontHigh

/-- What an address that memory does not list reads as: its content at reset, FONT at 0x050 to 0x09F and 0 elsewhere (R58,
R43). -/
def Memory.resetByte (a : Nat) : Byte :=
  if 0x050 ≤ a ∧ a < 0x0A0 then fontDefault.getD (a - 0x050) 0 else 0

end Sys2Proof.Machine
end

