-- ==== Sys2Proof/Machine/Ops.lean ====
section
/-! DEFINITION. The named operations over registers, memory, stack and frame buffer that the meanings share; taking a
fault; the fetch and the end of a Step. -/

namespace Sys2Proof.Machine

/-! ### Memory (spec/20_memory.md) -/

/-- MEM[a], unchecked. -/
def Memory.read (m : Memory) (a : Nat) : Byte := (m.lookup a).getD (Memory.resetByte a)

/-- A cell put in its place by rising address. -/
def Memory.insert (a : Nat) (b : Byte) : Memory → Memory
  | [] => [(a, b)]
  | c :: rest => if a < c.1 then (a, b) :: c :: rest else c :: Memory.insert a b rest

/-- MEM[a] <- b, unchecked. The canonical form is kept: the value an unlisted address reads as is not listed. -/
def Memory.write (m : Memory) (a : Nat) (b : Byte) : Memory :=
  let others := m.filter (fun c => c.1 != a)
  if b = Memory.resetByte a then others else Memory.insert a b others

/-- The n bytes at a, a + 1, …, in ascending address order (R56). -/
def Memory.readBytes (m : Memory) (a : Nat) : Nat → List Byte
  | 0 => []
  | n + 1 => m.read a :: m.readBytes (a + 1) n

/-- Bytes stored at a, a + 1, …, in ascending address order (R56). -/
def Memory.writeBytes (m : Memory) (a : Nat) : List Byte → Memory
  | [] => m
  | b :: bs => (m.write a b).writeBytes (a + 1) bs

/-- The canonical form: addresses strictly rising, inside the 4096 bytes of R50, and no entry equal to what an unlisted
address reads as (log 6). `above` bounds the addresses from below. -/
def Memory.wfFrom (above : Nat) : Memory → Bool
  | [] => true
  | c :: rest => decide (above ≤ c.1) && decide (c.1 < 4096) && (c.2 != Memory.resetByte c.1) && Memory.wfFrom (c.1 + 1) rest

/-- The canonical form of a whole memory. -/
def Memory.wf (m : Memory) : Bool := Memory.wfFrom 0 m

/-- The check of MemRead at one address (R54). -/
def readFault (a : Nat) : Option FaultCode :=
  if a ≥ 4096 then some .memOutOfRange else none

/-- The check of MemWrite at one address (R55). -/
def writeFault (a : Nat) : Option FaultCode :=
  if a ≥ 4096 then some .memOutOfRange
  else if a < 0x200 then some .reservedWrite
  else none

/-- The checks of an access of n bytes from a, made before anything is changed: the lowest address that fails, with
its fault (R56). -/
def firstFault (check : Nat → Option FaultCode) (a : Nat) : Nat → Option (FaultCode × Nat)
  | 0 => none
  | n + 1 =>
    match check a with
    | some c => some (c, a)
    | none => firstFault check (a + 1) n

/-! ### Registers -/

/-- V[x] (R20). -/
def State.getV (s : State) (x : Reg) : Byte := s.v[x]

/-- V[x] <- b (R20). -/
def State.setV (s : State) (x : Reg) (b : Byte) : State := { s with v := s.v.set x b }

/-- Registers 0, 1, … replaced by as many bytes as are given. -/
def replaceFirst (v : Vector Byte 16) (bs : List Byte) : Vector Byte 16 :=
  Vector.ofFn fun j : Fin 16 => bs.getD j v[j]

/-- V[0], V[1], … replaced by as many bytes as are given (Fx65, spec/44_index_memory.md R175). -/
def State.loadV (s : State) (bs : List Byte) : State := { s with v := replaceFirst s.v bs }

/-- I <- w (R27). -/
def State.setI (s : State) (w : Word) : State := { s with i := w }

/-- PC <- w (R24). -/
def State.setPc (s : State) (w : Word) : State := { s with pc := w }

/-- DT <- b (R30). -/
def State.setDt (s : State) (b : Byte) : State := { s with dt := b }

/-- ST <- b (R31). -/
def State.setSt (s : State) (b : Byte) : State := { s with st := b }

/-- FB replaced. -/
def State.setFb (s : State) (f : FrameBuffer) : State := { s with fb := f }

/-- MEM replaced. -/
def State.setMem (s : State) (m : Memory) : State := { s with mem := m }

/-- A skip: PC <- PC + 2 (spec/42_control.md R138). -/
def State.skip (s : State) : State := s.setPc (s.pc + 2)

/-- PC <- PC + 2 when the condition holds (R138). -/
def State.skipIf (s : State) (c : Bool) : State := if c then s.skip else s

/-! ### Stack (R28, R29) -/

/-- STACK[SP] <- w; SP <- SP + 1, for an SP below 16 (spec/42_control.md R132). -/
def State.push (s : State) (w : Word) : State :=
  { s with stack := s.stack.setIfInBounds s.sp.toNat w, sp := s.sp + 1 }

/-- SP <- SP - 1 and the entry there, which is not cleared (R130, R29); nothing when that is no entry of the stack. -/
def State.pop (s : State) : Option (Word × State) :=
  match s.stack[s.sp.toNat - 1]? with
  | some w => some (w, { s with sp := s.sp - 1 })
  | none => none

/-! ### Frame buffer (R33, spec/41_display.md) -/

/-- FB[r][c]; off the grid nothing is on. -/
def FrameBuffer.pixel (f : FrameBuffer) (r c : Nat) : Bool :=
  if h : c < 64 ∧ r < 32 then f[r][c] else false

/-- FB all off (R120). -/
def FrameBuffer.blank : FrameBuffer := Vector.replicate 32 (Vector.replicate 64 false)

/-- One set sprite bit at row py, column px: toggle the pixel and note a collision when it was on; off the grid
nothing happens (R121, R123). The pair is the frame buffer and the collision so far. -/
def togglePixel (py px : Nat) (d : FrameBuffer × Bool) : FrameBuffer × Bool :=
  if h : px < 64 ∧ py < 32 then
    (d.1.set py (d.1[py].set px (!d.1[py][px])), d.2 || d.1[py][px])
  else d

/-- One sprite byte, its bit 7 at column ox and its bit 0 at column ox + 7 (R121, R122). -/
def drawRow (py ox : Nat) (row : Byte) (d : FrameBuffer × Bool) : FrameBuffer × Bool :=
  (List.range 8).foldl (fun d c => if row.getLsbD (7 - c) then togglePixel py (ox + c) d else d) d

/-- The sprite bytes from row oy downwards, top row first (R121, R122). -/
def drawSprite (oy ox : Nat) : List Byte → FrameBuffer × Bool → FrameBuffer × Bool
  | [], d => d
  | row :: rows, d => drawSprite (oy + 1) ox rows (drawRow oy ox row d)

/-! ### Taking a fault (spec/60_exceptions.md R210 to R215)

There is no return from a fault: only Reset clears the record (R215). -/

/-- The number of a fault code (R211). -/
def FaultCode.number : FaultCode → BitVec 8
  | .pcOutOfRange => 1
  | .pcMisaligned => 2
  | .stackOverflow => 3
  | .stackUnderflow => 4
  | .memOutOfRange => 5
  | .reservedWrite => 6
  | .keyOutOfRange => 7

/-- Is a fault recorded (R101)? -/
def State.faulted (s : State) : Bool := s.fault.code != 0

/-- Fault entry (R212) from the state at the start of the Step: the record is written and nothing else changes. -/
def State.takeFault (s0 : State) (c : FaultCode) (opcode : Word) (info : BitVec 17) : State :=
  { s0 with fault := { code := c.number, pc := s0.pc, opcode := opcode, info := info } }

/-- raise Fault(c, info) in an execute phase (R212): PC goes back to the fetch address, the record is written, and nothing
else changes. `finish` restores what is left of the state at the start of the Step. -/
def raise (c : FaultCode) (info : Nat) (s : State) : Outcome :=
  .next ((s.setPc (s.pc - 2)).takeFault c s.opcode (BitVec.ofNat 17 info))

/-! ### Data accesses of several bytes (R56) -/

/-- Read n bytes at I and go on with them, or raise the lowest failing address's fault (R54, R56). -/
def State.loadBytes (s : State) (n : Nat) (use : List Byte → State) : Outcome :=
  match firstFault readFault s.i.toNat n with
  | some (c, a) => raise c a s
  | none => .next (use (s.mem.readBytes s.i.toNat n))

/-- Store bytes at I, or raise the lowest failing address's fault and store none (R55, R56). -/
def State.storeBytes (s : State) (bs : List Byte) : Outcome :=
  match firstFault writeFault s.i.toNat bs.length with
  | some (c, a) => raise c a s
  | none => .next (s.setMem (s.mem.writeBytes s.i.toNat bs))

/-! ### The Step around the execute phase (spec/40_cycle.md) -/

/-- The fetch check (R102): the range before the alignment. -/
def fetchFault (pc : Word) : Option FaultCode :=
  if pc.toNat < 0x200 ∨ pc.toNat > 0xFFE then some .pcOutOfRange
  else if pc.toNat % 2 = 1 then some .pcMisaligned
  else none

/-- The fetch (R103): two bytes at PC, big-endian. -/
def State.fetch (s : State) : Word :=
  bytesToWord (s.mem.read s.pc.toNat) (s.mem.read (s.pc.toNat + 1))

/-- The advance (R104), with the word latched in opcode (R38). -/
def State.advance (s : State) : State := { s with pc := s.pc + 2, opcode := s.fetch }

/-- One timer's tick: one less, clamped at 0 (R108). -/
def tickTimer (t : Byte) : Byte := if t = 0 then 0 else t - 1

/-- The timer tick (R108). -/
def State.tick (s : State) : State := { s with dt := tickTimer s.dt, st := tickTimer s.st }

/-- The Step's draw is spent (R112; log 1). -/
def State.spendDraw (s : State) : State := { s with randArg := none, rngDraws := s.rngDraws + 1 }

/-- The end of a Step that began in s0 and whose execute phase left t: the timer tick, or, when the execute phase raised
a fault, s0 with the fault record (R100, R109). -/
def State.finish (s0 t : State) : State :=
  if t.faulted then { s0 with fault := t.fault } else t.tick.spendDraw

/-- `finish` on the outcome of the execute phase. -/
def finishOutcome (s0 : State) : Outcome → Outcome
  | .next t => .next (s0.finish t)
  | .fault r => .fault r
  | .refused r => .refused r

/-- A word stored where the next fetch reads it. -/
def State.placeWord (s : State) (w : Word) : State :=
  s.setMem (s.mem.writeBytes s.pc.toNat (wordBytes w))

end Sys2Proof.Machine
end

