-- ==== Sys2Proof/Machine/Operands.lean ====
section
/-! DEFINITION. The operand forms of CORE: registers and fields zero-extended (spec/30_encoding.md R73), V0 to Vx, keys, the
decimal digits of Fx33, the glyph address of Fx29, RAND. -/

namespace Sys2Proof.Machine

/-- nnn zero-extended to 16 bits (R73). -/
def zextAddr (nnn : Addr) : Word := nnn.setWidth 16

/-- A register's value zero-extended to 16 bits. -/
def zextByte (b : Byte) : Word := b.setWidth 16

/-- V0, with which Bnnn adds (spec/42_control.md R137). -/
def v0 : Reg := 0

/-- VF (spec/10_state.md R21). -/
def vf : Reg := 15

/-- The values of V0 to Vx inclusive (Fx55, spec/44_index_memory.md R174). -/
def State.upTo (s : State) (x : Reg) : List Byte := s.v.toList.take (x.val + 1)

/-- The hundreds, tens and ones of a byte (Fx33, R173). -/
def decimalDigits (b : Byte) : List Byte :=
  [BitVec.ofNat 8 (b.toNat / 100), BitVec.ofNat 8 (b.toNat / 10 % 10), BitVec.ofNat 8 (b.toNat % 10)]

/-- The glyph address 0x050 + 5 * V[x], with no mask (Fx29, R172). -/
def glyphAddress (b : Byte) : Word := 0x050 + 5 * zextByte b

/-- KEY[k], for a k below 16 (spec/45_keypad_timers.md R190). -/
def State.keyAt (s : State) (k : Byte) : Option Bool := s.key[k.toNat]?

/-- The least pressed key (Fx0A, R193). -/
def State.lowestKey (s : State) : Option Reg := (List.finRange 16).find? fun k => s.key[k]

/-- RandomByte(), the Step's draw RAND (spec/43_alu.md R164): what the host named for this Step, else a free value (log 1). -/
def State.rand (s : State) : Byte := s.randArg.getD (Config.randomByte s.rngSeed s.rngDraws)

end Sys2Proof.Machine
end

