-- ==== Sys2Proof/Machine/Flags.lean ====
section
/-! DEFINITION. The flag computations, all of VF (spec/10_state.md R39). -/

namespace Sys2Proof.Machine

/-- A flag as VF holds it: 1 or 0. -/
def flagByte (c : Bool) : Byte := if c then 1 else 0

/-- VF <- c. -/
def State.setFlag (s : State) (c : Bool) : State := s.setV vf (flagByte c)

/-- The carry of 8xy4: the exact sum exceeds 255 (spec/43_alu.md R156). -/
def carryOf (a b : Byte) : Bool := decide (a.toNat + b.toNat > 255)

/-- The flag of 8xy5 and 8xy7: the first is strictly greater (R157, R159). -/
def greater (a b : Byte) : Bool := decide (a.toNat > b.toNat)

/-- The bit a right shift by one moves out: bit 0 (R158). -/
def outRight (a : Byte) : Bool := a.getLsbD 0

/-- The bit a left shift by one moves out: bit 7 (R160). -/
def outLeft (a : Byte) : Bool := a.getLsbD 7

/-- The result is written first and the flag last, so that the flag stays when x = 15 (spec/40_cycle.md R106). -/
def State.setResultFlag (s : State) (x : Reg) (r : Byte) (c : Bool) : State := (s.setV x r).setFlag c

end Sys2Proof.Machine
end

