-- ==== Sys2Proof/Machine/Alu.lean ====
section
/-! DEFINITION. Register loads, arithmetic, logic and RND (spec/43_alu.md). Results are taken modulo 256 (R162); operands
are read before anything is written and a flag is written last (spec/40_cycle.md R106). -/

namespace Sys2Proof.Machine

/-- 6xkk LD Vx, kk (R150). -/
def execLdImm (x : Reg) (kk : Byte) (s : State) : Outcome := .next (s.setV x kk)

/-- 7xkk ADD Vx, kk (R151): no flag. -/
def execAddImm (x : Reg) (kk : Byte) (s : State) : Outcome := .next (s.setV x (s.getV x + kk))

/-- 8xy0 LD Vx, Vy (R152). -/
def execLdReg (x y : Reg) (s : State) : Outcome := .next (s.setV x (s.getV y))

/-- 8xy1 OR Vx, Vy (R153): no flag. -/
def execOr (x y : Reg) (s : State) : Outcome := .next (s.setV x (s.getV x ||| s.getV y))

/-- 8xy2 AND Vx, Vy (R154): no flag. -/
def execAnd (x y : Reg) (s : State) : Outcome := .next (s.setV x (s.getV x &&& s.getV y))

/-- 8xy3 XOR Vx, Vy (R155): no flag. -/
def execXor (x y : Reg) (s : State) : Outcome := .next (s.setV x (s.getV x ^^^ s.getV y))

/-- 8xy4 ADD Vx, Vy (R156): VF is the carry. -/
def execAddReg (x y : Reg) (s : State) : Outcome :=
  .next (s.setResultFlag x (s.getV x + s.getV y) (carryOf (s.getV x) (s.getV y)))

/-- 8xy5 SUB Vx, Vy (R157): VF is V[x] > V[y]. -/
def execSub (x y : Reg) (s : State) : Outcome :=
  .next (s.setResultFlag x (s.getV x - s.getV y) (greater (s.getV x) (s.getV y)))

/-- 8xy6 SHR Vx (R158): VF is the bit shifted out; V[y] is not read. -/
def execShr (x : Reg) (s : State) : Outcome :=
  .next (s.setResultFlag x (s.getV x >>> 1) (outRight (s.getV x)))

/-- 8xy7 SUBN Vx, Vy (R159): VF is V[y] > V[x]. -/
def execSubn (x y : Reg) (s : State) : Outcome :=
  .next (s.setResultFlag x (s.getV y - s.getV x) (greater (s.getV y) (s.getV x)))

/-- 8xyE SHL Vx (R160): VF is the bit shifted out; V[y] is not read. -/
def execShl (x : Reg) (s : State) : Outcome :=
  .next (s.setResultFlag x (s.getV x <<< 1) (outLeft (s.getV x)))

/-- Cxkk RND Vx, kk (R161): RAND masked by kk; no flag. -/
def execRnd (x : Reg) (kk : Byte) (s : State) : Outcome := .next (s.setV x (s.rand &&& kk))

end Sys2Proof.Machine
end

