-- ==== Sys2Proof/Machine/Control.lean ====
section
/-! DEFINITION. Control transfer, skips and the unmapped words (spec/42_control.md, spec/40_cycle.md R110). PC holds the
fetch address plus 2 when a meaning runs (R104). -/

namespace Sys2Proof.Machine

/-- 00EE RET (R130). SP from 17 up is no legal value (R28): the machine stops (log 3). -/
def execRet (s : State) : Outcome :=
  if s.sp = 0 then raise .stackUnderflow s.sp.toNat s
  else
    match s.pop with
    | some (w, t) => .next (t.setPc w)
    | none => .fault (.illegalStackPointer s.sp)

/-- 1nnn JP nnn (R131). -/
def execJp (nnn : Addr) (s : State) : Outcome := .next (s.setPc (zextAddr nnn))

/-- 2nnn CALL nnn (R132). SP from 17 up is no legal value (R28): the machine stops (log 3). -/
def execCall (nnn : Addr) (s : State) : Outcome :=
  if s.sp = 16 then raise .stackOverflow s.sp.toNat s
  else if s.sp.toNat < 16 then .next ((s.push s.pc).setPc (zextAddr nnn))
  else .fault (.illegalStackPointer s.sp)

/-- 3xkk SE Vx, kk (R133). -/
def execSeImm (x : Reg) (kk : Byte) (s : State) : Outcome := .next (s.skipIf (s.getV x == kk))

/-- 4xkk SNE Vx, kk (R134). -/
def execSneImm (x : Reg) (kk : Byte) (s : State) : Outcome := .next (s.skipIf (s.getV x != kk))

/-- 5xyN SE Vx, Vy (R135). -/
def execSeReg (x y : Reg) (s : State) : Outcome := .next (s.skipIf (s.getV x == s.getV y))

/-- 9xyN SNE Vx, Vy (R136). -/
def execSneReg (x y : Reg) (s : State) : Outcome := .next (s.skipIf (s.getV x != s.getV y))

/-- Bnnn JP V0, nnn (R137): the register is always V0. -/
def execJpV0 (nnn : Addr) (s : State) : Outcome :=
  .next (s.setPc (zextByte (s.getV v0) + zextAddr nnn))

/-- An unmapped word: an empty execute phase (spec/40_cycle.md R110, spec/30_encoding.md R77). -/
def execUnmapped (s : State) : Outcome := .next s

end Sys2Proof.Machine
end

