-- ==== Sys2Proof/Machine/Display.lean ====
section
/-! DEFINITION. The display instructions (spec/41_display.md). -/

namespace Sys2Proof.Machine

/-- 00E0 CLS (R120). -/
def execCls (s : State) : Outcome := .next (s.setFb FrameBuffer.blank)

/-- Dxyn DRW Vx, Vy, n (R121 to R125): the origin is read before VF is written; all n bytes are read and checked. -/
def execDrw (x y : Reg) (n : Nibble) (s : State) : Outcome :=
  s.loadBytes n.toNat fun rows =>
    let d := drawSprite ((s.getV y).toNat % 32) ((s.getV x).toNat % 64) rows (s.fb, false)
    (s.setFb d.1).setFlag d.2

end Sys2Proof.Machine
end

