-- ==== Sys2Proof/Machine/IndexMemory.lean ====
section
/-! DEFINITION. The index register and memory transfer (spec/44_index_memory.md). No instruction changes I by an
access (R176). -/

namespace Sys2Proof.Machine

/-- Annn LD I, nnn (R170). -/
def execLdI (nnn : Addr) (s : State) : Outcome := .next (s.setI (zextAddr nnn))

/-- Fx1E ADD I, Vx (R171): modulo 2^16, no flag. -/
def execAddIVx (x : Reg) (s : State) : Outcome := .next (s.setI (s.i + zextByte (s.getV x)))

/-- Fx29 LD F, Vx (R172). -/
def execLdFVx (x : Reg) (s : State) : Outcome := .next (s.setI (glyphAddress (s.getV x)))

/-- Fx33 LD B, Vx (R173). -/
def execLdBVx (x : Reg) (s : State) : Outcome := s.storeBytes (decimalDigits (s.getV x))

/-- Fx55 LD [I], Vx (R174). -/
def execLdMemVx (x : Reg) (s : State) : Outcome := s.storeBytes (s.upTo x)

/-- Fx65 LD Vx, [I] (R175). -/
def execLdVxMem (x : Reg) (s : State) : Outcome := s.loadBytes (x.val + 1) s.loadV

end Sys2Proof.Machine
end

