-- ==== Sys2Proof/Machine/KeypadTimers.lean ====
section
/-! DEFINITION. The keypad and timer instructions (spec/45_keypad_timers.md). The timer tick follows in the same
Step (spec/40_cycle.md R108; `State.finish`). -/

namespace Sys2Proof.Machine

/-- Ex9E SKP Vx (R190). -/
def execSkp (x : Reg) (s : State) : Outcome :=
  match s.keyAt (s.getV x) with
  | some pressed => .next (s.skipIf pressed)
  | none => raise .keyOutOfRange (s.getV x).toNat s

/-- ExA1 SKNP Vx (R191). -/
def execSknp (x : Reg) (s : State) : Outcome :=
  match s.keyAt (s.getV x) with
  | some pressed => .next (s.skipIf (!pressed))
  | none => raise .keyOutOfRange (s.getV x).toNat s

/-- Fx07 LD Vx, DT (R192). -/
def execLdVxDt (x : Reg) (s : State) : Outcome := .next (s.setV x s.dt)

/-- Fx0A LD Vx, K (R193): the least pressed key, or PC back to this instruction. -/
def execLdVxK (x : Reg) (s : State) : Outcome :=
  match s.lowestKey with
  | some k => .next (s.setV x (BitVec.ofNat 8 k.val))
  | none => .next (s.setPc (s.pc - 2))

/-- Fx15 LD DT, Vx (R194). -/
def execLdDtVx (x : Reg) (s : State) : Outcome := .next (s.setDt (s.getV x))

/-- Fx18 LD ST, Vx (R195). -/
def execLdStVx (x : Reg) (s : State) : Outcome := .next (s.setSt (s.getV x))

end Sys2Proof.Machine
end

