-- ==== Sys2Proof/Machine/Step.lean ====
section
/-! DEFINITION. One Step (spec/40_cycle.md R100), and the host's placing of a word for the next fetch. -/

namespace Sys2Proof.Machine

/-- Step: the fault gate (R101), the fetch check (R102), the fetch (R103), the advance (R104), decode (R105), execute (R107),
and the timer tick or the fault entry (R108, R109). RAND is `State.rand` (log 1). A fault is a next state (log 2). -/
def step (s : State) : Host.Outcome State Fault Refusal :=
  if s.faulted then .next s
  else
    match fetchFault s.pc with
    | some c => .next (s.takeFault c 0 (s.pc.setWidth 17))
    | none => finishOutcome s (exec (decodeWord s.fetch) s.advance)

/-- The state with the instruction whose bits are w (every bit above nbits is 0) where the next Step fetches: at PC. It stands
for the host's LoadROM (log 7). -/
def State.withFetchWord (s : State) (nbits w : Nat) : State :=
  s.placeWord (BitVec.ofNat 16 (w % 2 ^ nbits))

end Sys2Proof.Machine
end

