-- ==== Sys2Proof/Machine/Interface.lean ====
section
/-! DEFINITION. The five logical operations of the host (spec/10_state.md R40): Reset, LoadROM, Step(RAND), SetKeys, read. They
never overlap (R41), so each is a function on whole states. -/

namespace Sys2Proof.Machine

/-- What the host reads (R40): FB as 32-bit words, ST and the fault record. -/
structure HostView where
  fb : List (BitVec 32)
  st : Byte
  fault : FaultRecord
  deriving DecidableEq, Repr

/-- What an operation gives back (spec/60_exceptions.md R229). -/
inductive HostResult where
  /-- Reset and SetKeys give nothing back. -/
  | done
  /-- LoadROM or Step went through. -/
  | ok
  /-- LoadROM rejected the ROM (R217). -/
  | romTooLarge
  /-- Step faulted, or CORE was faulted already (R111): the fault code. -/
  | fault (code : Byte)
  /-- What read returns. -/
  | values (view : HostView)
  deriving DecidableEq, Repr

/-- An operation with what the host sends (R229). FONT and SEED are the open parameters of Reset (00_scope.md R9). -/
inductive HostOp where
  | reset (font : Vector Byte 80) (seed : Nat)
  | loadRom (bytes : List Byte)
  | step (rand : Byte)
  | setKeys (keys : Vector Bool 16)
  | read
  deriving DecidableEq, Repr

/-- The state after Reset() for any FONT and SEED (R43). `State.reset` is the one at the default FONT of D14. -/
def State.resetWith (font : Vector Byte 80) (seed : Nat) : State :=
  { State.reset with mem := State.reset.mem.writeBytes 0x050 font.toList, rngSeed := seed }

/-- LoadROM(bytes) (spec/70_reset_and_hazards.md R242, R243): MEM from 0x200, or nothing. -/
def State.loadRom (s : State) (bytes : List Byte) : State × HostResult :=
  if bytes.length > 3584 then (s, .romTooLarge)
  else (s.setMem (s.mem.writeBytes 0x200 bytes), .ok)

/-- SetKeys (R40): KEY and nothing else. -/
def State.setKeys (s : State) (keys : Vector Bool 16) : State := { s with key := keys }

/-- The argument of Step(RAND), put where the Step takes its draw from (log 1). -/
def State.setRand (s : State) (r : Option Byte) : State := { s with randArg := r }

/-- What Step returns (R111), read from the state it leaves: the code is nonzero exactly when the Step faulted or CORE was
faulted already (log 2). -/
def State.stepResult (t : State) : HostResult := if t.faulted then .fault t.fault.code else .ok

/-- Step(RAND) (R40, R100). -/
def stepWith (rand : Byte) (s : State) : Host.Outcome (State × HostResult) Fault Refusal :=
  match step (s.setRand (some rand)) with
  | .next t => .next (t.setRand none, t.stepResult)
  | .fault r => .fault r
  | .refused r => .refused r

/-- A pixel at the host interface (R34). -/
def hostPixel (on : Bool) : BitVec 32 := if on then 0xFFFFFFFF else 0x00000000

/-- FB row-major, row length 64 (R33, R34). -/
def FrameBuffer.words (f : FrameBuffer) : List (BitVec 32) :=
  f.toList.flatMap fun row => row.toList.map hostPixel

/-- read (R40). -/
def State.view (s : State) : HostView := { fb := s.fb.words, st := s.st, fault := s.fault }

/-- The operations (R40). -/
def hostApply (op : HostOp) (s : State) : Host.Outcome (State × HostResult) Fault Refusal :=
  match op with
  | .reset font seed => .next (State.resetWith font seed, .done)
  | .loadRom bytes => .next (s.loadRom bytes)
  | .step rand => stepWith rand s
  | .setKeys keys => .next (s.setKeys keys, .done)
  | .read => .next (s, .values s.view)

end Sys2Proof.Machine
end

