-- ==== Sys2Proof/Safety.lean ====
section
/-! DEFINITION. The terms claims use: when a Step fetches, the invariant of CORE, which states a run can reach. -/

namespace Sys2Proof.Machine

/-- The Step fetches and executes: no fault is recorded and PC passes the fetch check (spec/40_cycle.md R101, R102). -/
structure State.Ready (s : State) : Prop where
  noFault : s.fault.code = 0
  low : 0x200 ≤ s.pc.toNat
  high : s.pc.toNat ≤ 0xFFE
  even : s.pc.toNat % 2 = 0

/-- A return address as a CALL pushes it: even and between 0x202 and 0x1000 (spec/42_control.md R130). -/
abbrev ReturnAddress (w : Word) : Prop := 0x202 ≤ w.toNat ∧ w.toNat ≤ 0x1000 ∧ w.toNat % 2 = 0

/-- What the record of each fault code says (spec/60_exceptions.md R211, R212). -/
def FaultRecord.Fits (r : FaultRecord) (sp : Byte) : FaultCode → Prop
  | .pcOutOfRange => r.opcode = 0 ∧ r.info.toNat = r.pc.toNat ∧ (r.pc.toNat < 0x200 ∨ 0xFFE < r.pc.toNat)
  | .pcMisaligned => r.opcode = 0 ∧ r.info.toNat = r.pc.toNat ∧ r.pc.toNat % 2 = 1
  | .stackOverflow => sp = 16 ∧ r.info = 16
  | .stackUnderflow => sp = 0 ∧ r.info = 0
  | .memOutOfRange => 4096 ≤ r.info.toNat ∧ r.info.toNat ≤ 0x1000E
  | .reservedWrite => r.info.toNat < 0x200
  | .keyOutOfRange => 15 < r.info.toNat ∧ r.info.toNat ≤ 255

/-- The fault record is clear, or it is that of one of the seven faults, taken at this PC (R36, R212). -/
def State.FaultOk (s : State) : Prop :=
  s.fault = ⟨0, 0, 0, 0⟩ ∨
  ∃ c : FaultCode, s.fault.code = c.number ∧ s.fault.pc = s.pc ∧ s.fault.Fits s.sp c

/-- The invariant of CORE. -/
structure State.Inv (s : State) : Prop where
  /-- Memory is in its canonical form, inside the 4096 bytes (log 6). -/
  mem : s.mem.wf = true
  /-- SP is 0 to 16 (spec/10_state.md R28). -/
  sp : s.sp.toNat ≤ 16
  /-- Every stack entry in use is a return address (spec/42_control.md R130). -/
  stack : ∀ j : Fin 16, j.val < s.sp.toNat → ReturnAddress s.stack[j]
  /-- PC is at most 0x10FE (spec/10_state.md R26). -/
  pc : s.pc.toNat ≤ 0x10FE
  /-- The fault record is clear or precise (R212). -/
  fault : s.FaultOk

/-- The states a run can reach: Reset for any FONT and SEED, then operations of the host and bare steps
(spec/70_reset_and_hazards.md R244). -/
inductive Reachable : State → Prop where
  | reset (font : Vector Byte 80) (seed : Nat) : Reachable (State.resetWith font seed)
  | op {s t : State} {r : HostResult} (o : HostOp) : Reachable s → hostApply o s = .next (t, r) → Reachable t
  | step {s t : State} : Reachable s → step s = .next t → Reachable t

/-! ### Words written out from the formats of spec/30_encoding.md R72, as numbers -/

/-- Format A: hexadecimal digit f, then nnn. -/
def wordA (f : Nat) (nnn : Addr) : Word := BitVec.ofNat 16 (f * 0x1000 + nnn.toNat)

/-- Formats XK and XS: hexadecimal digits f and x, then the low byte. -/
def wordXK (f : Nat) (x : Reg) (kk : Byte) : Word := BitVec.ofNat 16 (f * 0x1000 + x.val * 0x100 + kk.toNat)

/-- Formats XY and XYN: hexadecimal digits f, x, y, n. -/
def wordXYN (f : Nat) (x y : Reg) (n : Nibble) : Word :=
  BitVec.ofNat 16 (f * 0x1000 + x.val * 0x100 + y.val * 0x10 + n.toNat)

/-! ### What changes, in the terms of the rules -/

/-- V[x] may change, and nothing else in the whole state. -/
def OnlyV (x : Reg) (s t : State) : Prop := (∀ r, r ≠ x → t.getV r = s.getV r) ∧ t = { s with v := t.v }

/-- V[x] and VF may change, and nothing else in the whole state. -/
def OnlyVAndFlag (x : Reg) (s t : State) : Prop :=
  (∀ r, r ≠ x → r ≠ 15 → t.getV r = s.getV r) ∧ t = { s with v := t.v }

/-- What an execute phase that raises a fault leaves, s being the state after the advance (spec/60_exceptions.md R212): PC is back
at the fetch address, the record is written, and nothing else changes. -/
def raised (code : BitVec 8) (info : Nat) (s : State) : State :=
  { s with pc := s.pc - 2, fault := ⟨code, s.pc - 2, s.opcode, BitVec.ofNat 17 info⟩ }

/-- Does a set bit of Dxyn's sprite fall on the pixel at row r, column c (spec/41_display.md R121, R122)? The origin is row oy, column
ox; the sprite byte of row r is MEM[I + (r - oy)], and its bit 7 is the leftmost pixel. -/
def spriteBit (s : State) (oy ox n r c : Nat) : Bool :=
  decide (oy ≤ r ∧ r < oy + n ∧ ox ≤ c ∧ c < ox + 8) && (s.mem.read (s.i.toNat + (r - oy))).getLsbD (7 - (c - ox))

/-- The bytes an instruction stores from I upwards (spec/44_index_memory.md R173, R174): the decimal digits for Fx33, V0 to V[x] for
Fx55, none for any other. -/
def bytesStored (i : Instr) (s : State) : List Byte :=
  match i with
  | .ldBVx x => [(s.getV x).toNat / 100, (s.getV x).toNat / 10 % 10, (s.getV x).toNat % 10].map (BitVec.ofNat 8)
  | .ldMemVx x => s.v.toList.take (x.val + 1)
  | _ => []

/-- MEM[a] of s once the bytes bs are stored from base upwards: the stored byte where there is one, else what MEM[a] was. -/
def byteAfterStore (s : State) (base : Nat) (bs : List Byte) (a : Nat) : Byte :=
  if base ≤ a ∧ a < base + bs.length then bs.getD (a - base) 0 else s.mem.read a

/-- PC after a Step that completes, A being the address fetched from (spec/10_state.md R25). -/
def pcAfter (i : Instr) (s : State) : Nat :=
  let a := s.pc.toNat
  let skip := fun c : Bool => if c then a + 4 else a + 2
  match i with
  | .jp nnn => nnn.toNat
  | .call nnn => nnn.toNat
  | .ret => (s.stack.toList.getD (s.sp.toNat - 1) 0).toNat
  | .jpV0 nnn => (s.getV 0).toNat + nnn.toNat
  | .seImm x kk => skip (s.getV x == kk)
  | .sneImm x kk => skip (s.getV x != kk)
  | .seReg x y _ => skip (s.getV x == s.getV y)
  | .sneReg x y _ => skip (s.getV x != s.getV y)
  | .skp x => skip (s.key.toList.getD (s.getV x).toNat false)
  | .sknp x => skip (!s.key.toList.getD (s.getV x).toNat false)
  | .ldVxK _ => if s.key.toList.any id then a + 2 else a
  | _ => a + 2

/-- What DT holds before the tick (spec/10_state.md R30). -/
def dtBeforeTick (i : Instr) (s : State) : Byte :=
  match i with
  | .ldDtVx x => s.getV x
  | _ => s.dt

/-- What ST holds before the tick (spec/10_state.md R31). -/
def stBeforeTick (i : Instr) (s : State) : Byte :=
  match i with
  | .ldStVx x => s.getV x
  | _ => s.st

end Sys2Proof.Machine

namespace Sys2Proof

/-- The registers an instruction writes (spec/10_state.md R22). -/
def Instr.writesV (i : Instr) (r : Reg) : Bool :=
  match i with
  | .ldImm x _ | .addImm x _ | .ldReg x _ | .or x _ | .and x _ | .xor x _ | .rnd x _ | .ldVxDt x | .ldVxK x => r == x
  | .addReg x _ | .sub x _ | .shr x _ | .subn x _ | .shl x _ => r == x || r == 15
  | .drw _ _ _ => r == 15
  | .ldVxMem x => decide (r ≤ x)
  | _ => false

/-- The three instructions that write I (spec/10_state.md R27). -/
def Instr.writesI : Instr → Bool
  | .ldI _ | .addIVx _ | .ldFVx _ => true
  | _ => false

/-- The two instructions that write SP or STACK (spec/10_state.md R28). -/
def Instr.writesStack : Instr → Bool
  | .call _ | .ret => true
  | _ => false

/-- The two instructions that write FB (spec/10_state.md R33). -/
def Instr.writesFb : Instr → Bool
  | .cls | .drw _ _ _ => true
  | _ => false

/-- The two instructions that write MEM (spec/20_memory.md R50). -/
def Instr.writesMem : Instr → Bool
  | .ldBVx _ | .ldMemVx _ => true
  | _ => false

/-- The three instructions that read KEY (spec/10_state.md R32). -/
def Instr.readsKey : Instr → Bool
  | .skp _ | .sknp _ | .ldVxK _ => true
  | _ => false

/-- Cxkk, the one instruction that uses RAND (spec/40_cycle.md R112). -/
def Instr.readsRand : Instr → Bool
  | .rnd _ _ => true
  | _ => false

end Sys2Proof
end

