-- ==== Sys2Proof/Certificates/Slice0/Obligations.lean ====
section
/-! DEFINITION. The statements for the provers, from the numbered rules of spec/. In every statement about exec the state s is
the one after the advance (spec/40_cycle.md R104, R106): s.pc is the fetch address plus 2, and s.opcode the fetched word.
`OnlyV`, `OnlyVAndFlag` and equations `t = { s with … }` are the frames: they say that nothing else of the whole state changes,
every byte of memory included. -/

open Sys2Proof Sys2Proof.Machine

/-! ### Encoding and decoding (spec/30_encoding.md) -/

/-- Decoding the bytes of a well-formed instruction gives it back with every operand, and leaves the bytes after it. That Instr also carries
the bits that 5xyN, 9xyN, 8xy6 and 8xyE do not use is the model's choice (log 8). -/
def Obligations.DecodeOfEncodeIsTheInstruction : Prop :=
  ∀ (i : Instr) (rest : List Byte), i.wellFormed = true → decode (encodeBytes i ++ rest) = .ok (i, rest)

/-- Every word decodes to exactly one well-formed instruction, whose encoding is that word: no bit is dropped. For 5xyN, 9xyN, 8xy6 and
8xyE this last clause is the model's choice, not the spec's (log 8): Instr carries the bits that these words encode and the spec
ignores, so that for every N the one instruction of R80 keeps its N. -/
def Obligations.EncodeOfDecodeIsTheWord : Prop :=
  ∀ w : Word, (decodeWord w).wellFormed = true ∧ encode (decodeWord w) = w

/-- The decoder gives a word the row of spec/opcode_table.json whose mask and value it matches, no two rows match one word, and a word
that matches none is unmapped. What families 0, 5, 9 and E compare is the spec's decisions D10, D11 and D12 (log 10). -/
def Obligations.DecoderAgreesWithTheOpcodeTable : Prop :=
  ∀ w : Word,
    (decodeWord w).mnemonic = ((opcodeTable.find? fun r => r.fits w).map OpcodeRow.mnemonic).getD "UNMAPPED" ∧
    (opcodeTable.filter fun r => r.fits w).length ≤ 1

/-- The unmapped words are exactly those of R77's table, and each has an empty execute phase. Which words of families 0 and E
are unmapped is the spec's decision (D10, D11). -/
def Obligations.UnmappedWordsAreTheTabledOnes : Prop :=
  ∀ w : Word,
    (decodeWord w = .unmapped w ↔ isUnmappedWord w = true) ∧ (∀ u, decodeWord w = .unmapped u → u = w) ∧
    ∀ s : State, exec (.unmapped w) s = .next s

/-- In families 5 and 9 the low nibble selects nothing: every word 5xyN is SE Vx, Vy and every word 9xyN is SNE Vx, Vy, with one effect
for all N. The spec's decision D12. -/
def Obligations.LowNibbleOfFamiliesFiveAndNineIsIgnored : Prop :=
  ∀ (x y : Reg) (n : Nibble) (s : State),
    decodeWord (wordXYN 5 x y n) = .seReg x y n ∧ decodeWord (wordXYN 9 x y n) = .sneReg x y n ∧
    exec (.seReg x y n) s = exec (.seReg x y 0) s ∧ exec (.sneReg x y n) s = exec (.sneReg x y 0) s

/-- Words written out bit by bit from the spec's formats, at least one for each family 0 to F, decode to what they stand for. That 0x01E0 is
unmapped is the spec's decision D10 (log 10). -/
def Obligations.SampleWordsDecode : Prop :=
  decodeWord 0b0000000011100000 = .cls ∧ decodeWord 0b0000000011101110 = .ret ∧ decodeWord 0x01E0 = .unmapped 0x01E0 ∧
  decodeWord 0b0001001000110100 = .jp 0x234 ∧ decodeWord 0b0010101010111100 = .call 0xABC ∧
  decodeWord 0b0011001101000010 = .seImm 3 0x42 ∧ decodeWord 0b0100111100000001 = .sneImm 15 0x01 ∧
  decodeWord 0b0101000100100000 = .seReg 1 2 0 ∧ decodeWord 0b0110101001000010 = .ldImm 10 0x42 ∧
  decodeWord 0b0111101000000001 = .addImm 10 0x01 ∧ decodeWord 0b1000000100100100 = .addReg 1 2 ∧
  decodeWord 0b1001000100100000 = .sneReg 1 2 0 ∧ decodeWord 0b1010000100100011 = .ldI 0x123 ∧
  decodeWord 0b1011001100000001 = .jpV0 0x301 ∧ decodeWord 0b1100001100001111 = .rnd 3 0x0F ∧
  decodeWord 0b1101000000010101 = .drw 0 1 5 ∧ decodeWord 0b1110010110011110 = .skp 5 ∧
  decodeWord 0b1111001001010101 = .ldMemVx 2

/-! ### The Step (spec/40_cycle.md, spec/60_exceptions.md) -/

/-- A Step that fetches runs exec of the instruction that the two bytes at PC decode to, on the state with PC advanced by 2 and the
word latched. When exec leaves no fault recorded, both timers tick, clamped at 0, and the Step's draw is spent (the model's own fields,
log 1). When exec leaves a fault recorded, the state before the Step comes back with that record alone (log 2). A stop of exec is
the Step's stop (log 3), and exec refuses nothing. -/
def Obligations.StepRunsTheDecodedInstruction : Prop :=
  ∀ (s : State) (i : Instr), s.Ready →
    decode [s.mem.read s.pc.toNat, s.mem.read (s.pc.toNat + 1)] = .ok (i, []) →
    let s1 : State :=
      { s with pc := s.pc + 2, opcode := s.mem.read s.pc.toNat ++ s.mem.read (s.pc.toNat + 1) }
    (∀ t, exec i s1 = .next t → t.fault.code = 0 →
      step s = .next { t with
        dt := if t.dt = 0 then 0 else t.dt - 1, st := if t.st = 0 then 0 else t.st - 1,
        randArg := none, rngDraws := t.rngDraws + 1 }) ∧
    (∀ t, exec i s1 = .next t → t.fault.code ≠ 0 → step s = .next { s with fault := t.fault }) ∧
    (∀ r, exec i s1 = .fault r → step s = .fault r) ∧ ∀ r, exec i s1 ≠ .refused r

/-- While a fault is recorded a Step changes nothing, and Step(RAND) returns that fault for every RAND; only the model's own field for RAND is
cleared by the host's call (log 1). The fault gate is the spec's decision D3. -/
def Obligations.FaultedCoreIsHalted : Prop :=
  ∀ s : State, s.fault.code ≠ 0 →
    step s = .next s ∧
    ∀ r, hostApply (.step r) s = .next ({ s with randArg := none }, .fault s.fault.code)

/-- The fetch check: a PC below 0x200 or above 0xFFE is code 1, an odd PC in range is code 2, with FAULT_PC and FAULT_INFO the PC and
FAULT_OPCODE 0, and nothing else changes. The spec's decisions D4 and D5. -/
def Obligations.FetchCheckFaults : Prop :=
  ∀ s : State, s.fault.code = 0 →
    ((s.pc.toNat < 0x200 ∨ 0xFFE < s.pc.toNat) →
      step s = .next { s with fault := ⟨1, s.pc, 0, BitVec.ofNat 17 s.pc.toNat⟩ }) ∧
    (0x200 ≤ s.pc.toNat → s.pc.toNat ≤ 0xFFE → s.pc.toNat % 2 = 1 →
      step s = .next { s with fault := ⟨2, s.pc, 0, BitVec.ofNat 17 s.pc.toNat⟩ })

/-- A Step that faults changes the fault record alone, PC included; the record holds the PC, and the fetched word unless the fetch itself
faulted. The spec's decisions D3 and D4. -/
def Obligations.FaultingStepRestoresTheState : Prop :=
  ∀ s t : State, s.fault.code = 0 → step s = .next t → t.fault.code ≠ 0 →
    t = { s with fault := t.fault } ∧ t.fault.pc = s.pc ∧
    (t.fault.code = 1 ∨ t.fault.code = 2 → t.fault.opcode = 0) ∧
    (t.fault.code ≠ 1 → t.fault.code ≠ 2 →
      t.fault.opcode = s.mem.read s.pc.toNat ++ s.mem.read (s.pc.toNat + 1))

/-- PC after every Step that completes. -/
def Obligations.PcAfterACompletedStep : Prop :=
  ∀ s t : State, s.Ready → step s = .next t → t.fault.code = 0 → t.pc.toNat = pcAfter (decodeWord s.fetch) s

/-- At the end of every Step that does not fault each timer is one less than it was, or than what Fx15 or Fx18 wrote in that same Step,
and stays at 0. -/
def Obligations.TimersTickAtTheEndOfEveryCompletedStep : Prop :=
  ∀ s t : State, s.Ready → step s = .next t → t.fault.code = 0 →
    t.dt.toNat = (dtBeforeTick (decodeWord s.fetch) s).toNat - 1 ∧
    t.st.toNat = (stBeforeTick (decodeWord s.fetch) s).toNat - 1

/-- A Step changes a register, I, the stack, FB or MEM only when its instruction is one the spec lists as a writer of it, and no Step
changes KEY. -/
def Obligations.OnlyTheListedInstructionsWrite : Prop :=
  ∀ s t : State, s.Ready → step s = .next t →
    let i := decodeWord s.fetch
    (∀ r, i.writesV r = false → t.getV r = s.getV r) ∧
    (i.writesI = false → t.i = s.i) ∧
    (i.writesStack = false → t.sp = s.sp ∧ t.stack = s.stack) ∧
    (i.writesFb = false → t.fb = s.fb) ∧
    (i.writesMem = false → ∀ a, t.mem.read a = s.mem.read a) ∧
    t.key = s.key

/-- No Step and no operation of the host but Reset changes a byte below 0x200, the font included. That a data write there faults is the
spec's decision D7. -/
def Obligations.ReservedMemoryIsNeverChanged : Prop :=
  ∀ (s t : State) (a : Nat), a < 0x200 →
    (step s = .next t → t.mem.read a = s.mem.read a) ∧
    (∀ (o : HostOp) (r : HostResult), (∀ font seed, o ≠ .reset font seed) → hostApply o s = .next (t, r) →
      t.mem.read a = s.mem.read a)

/-- The draw RAND has no effect on any Step but that of Cxkk. -/
def Obligations.OnlyRndDependsOnRand : Prop :=
  ∀ (s : State) (r r' : Byte), (decodeWord s.fetch).readsRand = false → stepWith r s = stepWith r' s

/-- No instruction reads ST: two states that differ in ST alone take the same Step, up to ST. -/
def Obligations.NoStepDependsOnSt : Prop :=
  ∀ (s : State) (b : Byte),
    (∀ t, step s = .next t → ∃ b', step { s with st := b } = .next { t with st := b' }) ∧
    (∀ r, step s = .fault r → step { s with st := b } = .fault r)

/-- KEY affects the Steps of Ex9E, ExA1 and Fx0A alone. -/
def Obligations.OnlyKeyInstructionsDependOnKey : Prop :=
  ∀ (s : State) (k : Vector Bool 16), (decodeWord s.fetch).readsKey = false →
    (∀ t, step s = .next t → step { s with key := k } = .next { t with key := k }) ∧
    (∀ r, step s = .fault r → step { s with key := k } = .fault r)

/-! ### Invariants -/

/-- Every Step keeps the invariant of CORE: canonical memory, SP at most 16, return addresses on the stack, PC at most 0x10FE, a
clear or precise fault record. The fault record's terms are the spec's decisions D3 and D4; the memory's form is the model's (log 6). -/
def Obligations.StepKeepsTheInvariant : Prop :=
  ∀ s t : State, s.Inv → step s = .next t → t.Inv

/-- The state after Reset meets the invariant, for every FONT and SEED. -/
def Obligations.ResetMeetsTheInvariant : Prop :=
  State.reset.Inv ∧ ∀ (font : Vector Byte 80) (seed : Nat), (State.resetWith font seed).Inv

/-- In a state that meets the invariant a Step always answers a next state: the model stops on no instruction. -/
def Obligations.StepAlwaysAnswersUnderTheInvariant : Prop :=
  ∀ s : State, s.Inv → ∃ t, step s = .next t

/-- Every state a run can reach from Reset, through Steps and the host's operations (LoadROM of any bytes among them), meets the invariant,
and every operation answers there. -/
def Obligations.EveryReachableStateIsSafeAndLive : Prop :=
  ∀ s : State, Reachable s → s.Inv ∧ ∀ o : HostOp, ∃ t r, hostApply o s = .next (t, r)

/-! ### Memory (spec/20_memory.md) -/

/-- Two memories in canonical form that read alike at every address are equal data (the model's own form, log 6). -/
def Obligations.EqualReadsMeanEqualMemories : Prop :=
  ∀ m m' : Memory, m.wf = true → m'.wf = true → (∀ a, m.read a = m'.read a) → m = m'

/-- After every Step that completes, Fx33's and Fx55's included, and after every LoadROM that is accepted, a fetch from any address reads each of
its two bytes, high byte first, as the byte stored there, or as it was where none was stored: both, one or neither may be new. The
instruction that stored was the word fetched before the store, wherever it stores. That the fetch sees every earlier write at once is the spec's decision D20 (log 10). -/
def Obligations.FetchSeesEarlierStores : Prop :=
  (∀ (s t : State) (p : Word), s.Ready → step s = .next t → t.fault.code = 0 →
    let byte := byteAfterStore s s.i.toNat (bytesStored (decodeWord s.fetch) s)
    ({ t with pc := p } : State).fetch = byte p.toNat ++ byte (p.toNat + 1)) ∧
  (∀ (s t : State) (rom : List Byte) (p : Word), hostApply (.loadRom rom) s = .next (t, .ok) →
    let byte := byteAfterStore s 0x200 rom
    ({ t with pc := p } : State).fetch = byte p.toNat ++ byte (p.toNat + 1))

/-! ### Display (spec/41_display.md) -/

/-- 00E0 turns every pixel off and changes nothing else. -/
def Obligations.ClsClearsTheFrameBuffer : Prop :=
  decodeWord 0x00E0 = .cls ∧
  ∀ s : State, ∃ t, exec .cls s = .next t ∧ (∀ r c, t.fb.pixel r c = false) ∧ t = { s with fb := t.fb }

/-- Dxyn, when its n bytes lie in memory: every pixel of the grid is toggled exactly where a set sprite bit falls on it, clipped at the
edges, VF ends as 1 exactly when some pixel went from on to off, the origin is that of Vx and Vy before VF is written, and nothing else
changes. Clipping's details and the order for x = 15 or y = 15 are the spec's decisions D13 and D9. -/
def Obligations.DrwTogglesTheSpritePixels : Prop :=
  ∀ (x y : Reg) (n : Nibble), decodeWord (wordXYN 0xD x y n) = .drw x y n ∧
  ∀ s : State, (n = 0 ∨ s.i.toNat + n.toNat ≤ 4096) →
    let oy := (s.getV y).toNat % 32
    let ox := (s.getV x).toNat % 64
    ∃ t, exec (.drw x y n) s = .next t ∧
      (∀ r c, r < 32 → c < 64 → t.fb.pixel r c = (s.fb.pixel r c ^^ spriteBit s oy ox n.toNat r c)) ∧
      ((∃ r c, r < 32 ∧ c < 64 ∧ s.fb.pixel r c = true ∧ t.fb.pixel r c = false) → t.getV 15 = 1) ∧
      ((∀ r c, r < 32 → c < 64 → s.fb.pixel r c = true → t.fb.pixel r c = true) → t.getV 15 = 0) ∧
      (∀ r, r ≠ 15 → t.getV r = s.getV r) ∧ t = { s with v := t.v, fb := t.fb }

/-! ### Control transfer (spec/42_control.md) -/

/-- 00EE pops the newest entry, which is not cleared; with an empty stack it raises code 4 with info 0. -/
def Obligations.RetPopsOrUnderflows : Prop :=
  decodeWord 0x00EE = .ret ∧
  ∀ s : State,
    (∀ j : Fin 16, s.sp.toNat = j.val + 1 →
      exec .ret s = .next { s with sp := BitVec.ofNat 8 j.val, pc := s.stack[j] }) ∧
    (s.sp = 0 → exec .ret s = .next (raised 4 0 s))

/-- 2nnn pushes the address after it and jumps; with 16 entries in use it raises code 3 with info 16. -/
def Obligations.CallPushesOrOverflows : Prop :=
  ∀ nnn : Addr, decodeWord (wordA 2 nnn) = .call nnn ∧
  ∀ s : State,
    (∀ j : Fin 16, s.sp.toNat = j.val →
      ∃ t, exec (.call nnn) s = .next t ∧ t.stack[j] = s.pc ∧ (∀ k : Fin 16, k ≠ j → t.stack[k] = s.stack[k]) ∧
        t.sp.toNat = j.val + 1 ∧ t.pc.toNat = nnn.toNat ∧ t = { s with stack := t.stack, sp := t.sp, pc := t.pc }) ∧
    (s.sp = 16 → exec (.call nnn) s = .next (raised 3 16 s))

/-- With an SP above 16, which the spec calls no legal value, 2nnn and 00EE stop by name: the model's choice (log 3). -/
def Obligations.IllegalStackPointerStops : Prop :=
  ∀ (s : State) (nnn : Addr), 16 < s.sp.toNat →
    exec (.call nnn) s = .fault (.illegalStackPointer s.sp) ∧ exec .ret s = .fault (.illegalStackPointer s.sp)

/-- 00EE after 2nnn returns to exactly the instruction after the call, with SP as before, wherever the subroutine stands. -/
def Obligations.RetUndoesCall : Prop :=
  ∀ (s t : State) (nnn : Addr) (p : Word), s.sp.toNat < 16 → exec (.call nnn) s = .next t →
    exec .ret { t with pc := p } = .next { t with sp := s.sp, pc := s.pc }

/-- 1nnn jumps to nnn. -/
def Obligations.JpJumpsToTheAddress : Prop :=
  ∀ nnn : Addr, decodeWord (wordA 1 nnn) = .jp nnn ∧
  ∀ s : State, ∃ t, exec (.jp nnn) s = .next t ∧ t.pc.toNat = nnn.toNat ∧ t = { s with pc := t.pc }

/-- Bnnn jumps to the exact sum of nnn and V0, whatever its x field. -/
def Obligations.JpV0AddsV0 : Prop :=
  ∀ nnn : Addr, decodeWord (wordA 0xB nnn) = .jpV0 nnn ∧
  ∀ s : State, ∃ t, exec (.jpV0 nnn) s = .next t ∧ t.pc.toNat = (s.getV 0).toNat + nnn.toNat ∧ t = { s with pc := t.pc }

/-- 3xkk skips the next instruction exactly when V[x] equals kk. -/
def Obligations.SeImmSkipsWhenEqual : Prop :=
  ∀ (x : Reg) (kk : Byte), decodeWord (wordXK 3 x kk) = .seImm x kk ∧
  ∀ s : State, exec (.seImm x kk) s = .next { s with pc := if s.getV x = kk then s.pc + 2 else s.pc }

/-- 4xkk skips the next instruction exactly when V[x] differs from kk. -/
def Obligations.SneImmSkipsWhenDifferent : Prop :=
  ∀ (x : Reg) (kk : Byte), decodeWord (wordXK 4 x kk) = .sneImm x kk ∧
  ∀ s : State, exec (.sneImm x kk) s = .next { s with pc := if s.getV x = kk then s.pc else s.pc + 2 }

/-- 5xy0 skips the next instruction exactly when V[x] equals V[y], and 9xy0 exactly when they differ, whatever the low nibble of the word,
which the spec ignores by its decision D12. -/
def Obligations.RegisterSkipsCompareTwoRegisters : Prop :=
  ∀ (x y : Reg) (n : Nibble) (s : State),
    exec (.seReg x y n) s = .next { s with pc := if s.getV x = s.getV y then s.pc + 2 else s.pc } ∧
    exec (.sneReg x y n) s = .next { s with pc := if s.getV x = s.getV y then s.pc else s.pc + 2 }

/-! ### Loads and arithmetic (spec/43_alu.md) -/

/-- 6xkk loads kk into V[x], VF included, and changes nothing else. -/
def Obligations.LdImmLoadsTheImmediate : Prop :=
  ∀ (x : Reg) (kk : Byte), decodeWord (wordXK 6 x kk) = .ldImm x kk ∧
  ∀ s : State, ∃ t, exec (.ldImm x kk) s = .next t ∧ t.getV x = kk ∧ OnlyV x s t

/-- 7xkk adds kk to V[x] modulo 256 and writes no flag. -/
def Obligations.AddImmWrapsAndWritesNoFlag : Prop :=
  ∀ (x : Reg) (kk : Byte), decodeWord (wordXK 7 x kk) = .addImm x kk ∧
  ∀ s : State, ∃ t, exec (.addImm x kk) s = .next t ∧
    (t.getV x).toNat = ((s.getV x).toNat + kk.toNat) % 256 ∧ OnlyV x s t

/-- 8xy0 copies V[y] into V[x]. -/
def Obligations.LdRegCopies : Prop :=
  ∀ x y : Reg, decodeWord (wordXYN 8 x y 0) = .ldReg x y ∧
  ∀ s : State, ∃ t, exec (.ldReg x y) s = .next t ∧ t.getV x = s.getV y ∧ OnlyV x s t

/-- 8xy1, 8xy2 and 8xy3 write the bitwise or, and, exclusive or of V[x] and V[y] to V[x], bit by bit, and no flag. -/
def Obligations.LogicIsBitwiseAndWritesNoFlag : Prop :=
  ∀ x y : Reg,
    decodeWord (wordXYN 8 x y 1) = .or x y ∧ decodeWord (wordXYN 8 x y 2) = .and x y ∧
    decodeWord (wordXYN 8 x y 3) = .xor x y ∧
  ∀ s : State,
    (∃ t, exec (.or x y) s = .next t ∧ OnlyV x s t ∧
      ∀ b, (t.getV x).getLsbD b = ((s.getV x).getLsbD b || (s.getV y).getLsbD b)) ∧
    (∃ t, exec (.and x y) s = .next t ∧ OnlyV x s t ∧
      ∀ b, (t.getV x).getLsbD b = ((s.getV x).getLsbD b && (s.getV y).getLsbD b)) ∧
    (∃ t, exec (.xor x y) s = .next t ∧ OnlyV x s t ∧
      ∀ b, (t.getV x).getLsbD b = ((s.getV x).getLsbD b ^^ (s.getV y).getLsbD b))

/-- 8xy4 adds modulo 256 and VF ends as the carry, for x = 15 too; that order is the spec's decision D9. -/
def Obligations.AddRegSumsAndCarries : Prop :=
  ∀ x y : Reg, decodeWord (wordXYN 8 x y 4) = .addReg x y ∧
  ∀ s : State, ∃ t, exec (.addReg x y) s = .next t ∧
    (x ≠ 15 → (t.getV x).toNat = ((s.getV x).toNat + (s.getV y).toNat) % 256) ∧
    (t.getV 15).toNat = (if (s.getV x).toNat + (s.getV y).toNat > 255 then 1 else 0) ∧ OnlyVAndFlag x s t

/-- 8xy5 and 8xy7 subtract modulo 256, and VF ends as 1 exactly when the minuend is strictly greater, for x = 15 too; that order is the
spec's decision D9. -/
def Obligations.SubtractionsWrapAndCompareStrictly : Prop :=
  ∀ x y : Reg, decodeWord (wordXYN 8 x y 5) = .sub x y ∧ decodeWord (wordXYN 8 x y 7) = .subn x y ∧
  ∀ s : State,
    (∃ t, exec (.sub x y) s = .next t ∧
      (x ≠ 15 → ((t.getV x).toNat : Int) = ((s.getV x).toNat - (s.getV y).toNat : Int) % 256) ∧
      (t.getV 15).toNat = (if (s.getV x).toNat > (s.getV y).toNat then 1 else 0) ∧ OnlyVAndFlag x s t) ∧
    (∃ t, exec (.subn x y) s = .next t ∧
      (x ≠ 15 → ((t.getV x).toNat : Int) = ((s.getV y).toNat - (s.getV x).toNat : Int) % 256) ∧
      (t.getV 15).toNat = (if (s.getV y).toNat > (s.getV x).toNat then 1 else 0) ∧ OnlyVAndFlag x s t)

/-- 8xy6 and 8xyE shift V[x] by one bit, VF ends as the bit shifted out, for x = 15 too, and V[y] plays no part; the order for x = 15 is
the spec's decision D9. -/
def Obligations.ShiftsMoveOneBitIntoTheFlag : Prop :=
  ∀ x y : Reg, decodeWord (wordXYN 8 x y 6) = .shr x y ∧ decodeWord (wordXYN 8 x y 0xE) = .shl x y ∧
  ∀ s : State,
    (∃ t, (∀ z, exec (.shr x z) s = .next t) ∧ (x ≠ 15 → (t.getV x).toNat = (s.getV x).toNat / 2) ∧
      (t.getV 15).toNat = (s.getV x).toNat % 2 ∧ OnlyVAndFlag x s t) ∧
    (∃ t, (∀ z, exec (.shl x z) s = .next t) ∧ (x ≠ 15 → (t.getV x).toNat = 2 * (s.getV x).toNat % 256) ∧
      (t.getV 15).toNat = (s.getV x).toNat / 128 ∧ OnlyVAndFlag x s t)

/-- Cxkk writes RAND masked by kk to V[x] and no flag, for every RAND the host names and for the free draw where it names none (log 1);
every value under the mask is possible. That RAND is a free input is the spec's decision D15. -/
def Obligations.RndMasksTheDraw : Prop :=
  ∀ (x : Reg) (kk : Byte), decodeWord (wordXK 0xC x kk) = .rnd x kk ∧
  ∀ s : State,
    (∃ t, exec (.rnd x kk) s = .next t ∧ t.getV x = s.rand &&& kk ∧ OnlyV x s t) ∧
    (∀ r : Byte, ∃ t, exec (.rnd x kk) { s with randArg := some r } = .next t ∧ t.getV x = r &&& kk) ∧
    (∀ v : Byte, v &&& ~~~kk = 0 → ∃ r t, exec (.rnd x kk) { s with randArg := some r } = .next t ∧ t.getV x = v)

/-! ### Index register and memory (spec/44_index_memory.md) -/

/-- Annn, Fx1E and Fx29 write I: nnn, the sum modulo 2^16, the glyph address with no mask; no flag and no fault. -/
def Obligations.IndexInstructionsWriteI : Prop :=
  (∀ nnn : Addr, decodeWord (wordA 0xA nnn) = .ldI nnn ∧
    ∀ s : State, ∃ t, exec (.ldI nnn) s = .next t ∧ t.i.toNat = nnn.toNat ∧ t = { s with i := t.i }) ∧
  (∀ x : Reg, decodeWord (wordXK 0xF x 0x1E) = .addIVx x ∧ decodeWord (wordXK 0xF x 0x29) = .ldFVx x ∧
    ∀ s : State,
      (∃ t, exec (.addIVx x) s = .next t ∧ t.i.toNat = (s.i.toNat + (s.getV x).toNat) % 65536 ∧ t = { s with i := t.i }) ∧
      (∃ t, exec (.ldFVx x) s = .next t ∧ t.i.toNat = 0x050 + 5 * (s.getV x).toNat ∧ t = { s with i := t.i }))

/-- Fx33 stores the three decimal digits of V[x] at I, I + 1, I + 2 and nothing else; or it raises code 6 with info I below 0x200, code 5
with the lowest address of 4096 or more past the end, and stores nothing. -/
def Obligations.LdBStoresTheDecimalDigits : Prop :=
  ∀ x : Reg, decodeWord (wordXK 0xF x 0x33) = .ldBVx x ∧
  ∀ s : State,
    (0x200 ≤ s.i.toNat → s.i.toNat + 2 < 4096 →
      ∃ t, exec (.ldBVx x) s = .next t ∧
        (t.mem.read s.i.toNat).toNat = (s.getV x).toNat / 100 ∧
        (t.mem.read (s.i.toNat + 1)).toNat = (s.getV x).toNat / 10 % 10 ∧
        (t.mem.read (s.i.toNat + 2)).toNat = (s.getV x).toNat % 10 ∧
        (∀ a, a < s.i.toNat ∨ s.i.toNat + 2 < a → t.mem.read a = s.mem.read a) ∧ t = { s with mem := t.mem }) ∧
    (s.i.toNat < 0x200 → exec (.ldBVx x) s = .next (raised 6 s.i.toNat s)) ∧
    (4096 ≤ s.i.toNat + 2 → exec (.ldBVx x) s = .next (raised 5 (max s.i.toNat 4096) s))

/-- Fx55 stores V0 to V[x] at I to I + x and nothing else, and leaves I; or it raises code 6 with info I below 0x200, code 5 with the
lowest address of 4096 or more past the end, and stores nothing. -/
def Obligations.LdMemStoresTheRegisters : Prop :=
  ∀ x : Reg, decodeWord (wordXK 0xF x 0x55) = .ldMemVx x ∧
  ∀ s : State,
    (0x200 ≤ s.i.toNat → s.i.toNat + x.val < 4096 →
      ∃ t, exec (.ldMemVx x) s = .next t ∧ (∀ k : Reg, k ≤ x → t.mem.read (s.i.toNat + k.val) = s.getV k) ∧
        (∀ a, a < s.i.toNat ∨ s.i.toNat + x.val < a → t.mem.read a = s.mem.read a) ∧ t = { s with mem := t.mem }) ∧
    (s.i.toNat < 0x200 → exec (.ldMemVx x) s = .next (raised 6 s.i.toNat s)) ∧
    (4096 ≤ s.i.toNat + x.val → exec (.ldMemVx x) s = .next (raised 5 (max s.i.toNat 4096) s))

/-- Fx65 loads V0 to V[x] from I to I + x, below 0x200 too, and changes nothing else; or it raises code 5 with the lowest address of
4096 or more past the end, and loads nothing. -/
def Obligations.LdFromMemLoadsTheRegisters : Prop :=
  ∀ x : Reg, decodeWord (wordXK 0xF x 0x65) = .ldVxMem x ∧
  ∀ s : State,
    (s.i.toNat + x.val < 4096 →
      ∃ t, exec (.ldVxMem x) s = .next t ∧ (∀ k : Reg, k ≤ x → t.getV k = s.mem.read (s.i.toNat + k.val)) ∧
        (∀ k : Reg, x < k → t.getV k = s.getV k) ∧ t = { s with v := t.v }) ∧
    (4096 ≤ s.i.toNat + x.val → exec (.ldVxMem x) s = .next (raised 5 (max s.i.toNat 4096) s))

/-- Dxyn with a sprite byte at or past 4096 raises code 5 with the lowest such address, even when that row would be clipped, and draws
nothing. The spec's decisions D6 and D13. -/
def Obligations.DrwFaultsPastMemory : Prop :=
  ∀ (x y : Reg) (n : Nibble) (s : State), n ≠ 0 → 4096 < s.i.toNat + n.toNat →
    exec (.drw x y n) s = .next (raised 5 (max s.i.toNat 4096) s)

/-! ### Keypad and timers (spec/45_keypad_timers.md) -/

/-- Ex9E skips exactly when the key numbered V[x] is pressed, and ExA1 exactly when it is not; above 15 both raise code 7 with info
V[x]. The fault is the spec's decision D8. -/
def Obligations.KeySkipsTestTheKey : Prop :=
  ∀ x : Reg, decodeWord (wordXK 0xE x 0x9E) = .skp x ∧ decodeWord (wordXK 0xE x 0xA1) = .sknp x ∧
  ∀ s : State,
    (∀ k : Fin 16, (s.getV x).toNat = k.val →
      exec (.skp x) s = .next { s with pc := if s.key[k] then s.pc + 2 else s.pc } ∧
      exec (.sknp x) s = .next { s with pc := if s.key[k] then s.pc else s.pc + 2 }) ∧
    (15 < (s.getV x).toNat →
      exec (.skp x) s = .next (raised 7 (s.getV x).toNat s) ∧ exec (.sknp x) s = .next (raised 7 (s.getV x).toNat s))

/-- Fx07 copies DT into V[x]. -/
def Obligations.LdFromDtCopiesTheTimer : Prop :=
  ∀ x : Reg, decodeWord (wordXK 0xF x 0x07) = .ldVxDt x ∧
  ∀ s : State, ∃ t, exec (.ldVxDt x) s = .next t ∧ t.getV x = s.dt ∧ OnlyV x s t

/-- Fx0A loads the least pressed key into V[x]; with no key pressed PC goes back to this instruction and nothing else changes. -/
def Obligations.KeyWaitTakesTheLeastKeyOrRepeats : Prop :=
  ∀ x : Reg, decodeWord (wordXK 0xF x 0x0A) = .ldVxK x ∧
  ∀ s : State,
    (∀ k : Fin 16, s.key[k] = true → (∀ j : Fin 16, j < k → s.key[j] = false) →
      ∃ t, exec (.ldVxK x) s = .next t ∧ (t.getV x).toNat = k.val ∧ OnlyV x s t) ∧
    ((∀ j : Fin 16, s.key[j] = false) → exec (.ldVxK x) s = .next { s with pc := s.pc - 2 })

/-- Fx15 and Fx18 load V[x] into DT and into ST. -/
def Obligations.TimerLoadsWriteTheTimer : Prop :=
  ∀ x : Reg, decodeWord (wordXK 0xF x 0x15) = .ldDtVx x ∧ decodeWord (wordXK 0xF x 0x18) = .ldStVx x ∧
  ∀ s : State, exec (.ldDtVx x) s = .next { s with dt := s.getV x } ∧ exec (.ldStVx x) s = .next { s with st := s.getV x }

/-! ### Reset and the host (spec/10_state.md, spec/70_reset_and_hazards.md) -/

/-- The values of R43 after Reset, for every FONT and SEED. Reset forgets the whole state before it, the model's own fields included: from any two
states it gives the same, by the spec's decision D26 (log 10). At the default FONT of D14 (log 4) it is `State.reset`, up to SEED. -/
def Obligations.ResetLeavesTheResetValues : Prop :=
  (∀ (font : Vector Byte 80) (seed : Nat) (s : State), ∃ t, hostApply (.reset font seed) s = .next (t, .done) ∧
    (∀ r, t.getV r = 0) ∧ t.i = 0 ∧ t.pc = 0x200 ∧ t.sp = 0 ∧ (∀ j : Fin 16, t.stack[j] = 0) ∧ t.dt = 0 ∧ t.st = 0 ∧
    (∀ k : Fin 16, t.key[k] = false) ∧ (∀ r c, t.fb.pixel r c = false) ∧
    (∀ k : Fin 80, t.mem.read (0x050 + k.val) = font[k]) ∧
    (∀ a, a < 0x050 ∨ 0x09F < a → t.mem.read a = 0) ∧ t.fault = ⟨0, 0, 0, 0⟩ ∧ t.rngSeed = seed) ∧
  (∀ (font : Vector Byte 80) (seed : Nat) (s s' : State),
    hostApply (.reset font seed) s = hostApply (.reset font seed) s') ∧
  (∀ font : Vector Byte 80, font.toList = fontDefault →
    ∀ seed, State.resetWith font seed = { State.reset with rngSeed := seed })

/-- LoadROM copies at most 3584 bytes to MEM from 0x200 and changes nothing else; a longer ROM is rejected and nothing changes. Its corners
are the spec's decision D16. -/
def Obligations.LoadRomCopiesOrRejects : Prop :=
  ∀ (s : State) (bytes : List Byte),
    (bytes.length ≤ 3584 → ∃ t, hostApply (.loadRom bytes) s = .next (t, .ok) ∧
      (∀ k (h : k < bytes.length), t.mem.read (0x200 + k) = bytes[k]) ∧
      (∀ a, a < 0x200 ∨ 0x200 + bytes.length ≤ a → t.mem.read a = s.mem.read a) ∧ t = { s with mem := t.mem }) ∧
    (3584 < bytes.length → hostApply (.loadRom bytes) s = .next (s, .romTooLarge))

/-- SetKeys writes KEY alone; read changes nothing and gives ST, the fault record and FB as 2048 words, 0xFFFFFFFF for a pixel that is on
and 0 for one that is off, row-major with row length 64. The two words at the interface are the spec's decision D27. -/
def Obligations.HostSetsKeysAndReadsTheScreen : Prop :=
  ∀ s : State,
    (∀ k, hostApply (.setKeys k) s = .next ({ s with key := k }, .done)) ∧
    ∃ view : HostView, hostApply .read s = .next (s, .values view) ∧ view.st = s.st ∧ view.fault = s.fault ∧
      view.fb.length = 2048 ∧
      ∀ r c, r < 32 → c < 64 →
        view.fb[r * 64 + c]? = some (if s.fb.pixel r c then (0xFFFFFFFF : BitVec 32) else 0x00000000)

/-- Step(RAND) is a Step with that RAND, and its result is Ok when it leaves no fault recorded and Fault(code) otherwise. The result's form is
the spec's decision D3. -/
def Obligations.StepReturnsOkOrTheFaultCode : Prop :=
  ∀ (s t : State) (rand : Byte), step { s with randArg := some rand } = .next t →
    (t.fault.code = 0 → hostApply (.step rand) s = .next ({ t with randArg := none }, .ok)) ∧
    (t.fault.code ≠ 0 → hostApply (.step rand) s = .next ({ t with randArg := none }, .fault t.fault.code))

/-- Every operation of the host, Step(RAND) for every RAND among them, keeps the invariant of CORE, from every state that meets it. The fault
record's terms are the spec's decisions D3 and D4; the memory's form is the model's (log 6). -/
def Obligations.HostOperationsKeepTheInvariant : Prop :=
  ∀ (s t : State) (o : HostOp) (r : HostResult), s.Inv → hostApply o s = .next (t, r) → t.Inv
end

