-- ==== Sys2Proof/Laws/Decode.lean ====
section
/-! SUPPORT. The fields of a word as numbers, the fields of an encoded word, and words and their bytes. -/

namespace Sys2Proof

/-! ### The fields of a word (spec/30_encoding.md R71) -/

theorem Word.family_toNat (w : Word) : w.family.toNat = w.toNat / 4096 := by
  have := w.isLt
  simp [Word.family, BitVec.extractLsb'_toNat, Nat.shiftRight_eq_div_pow]; omega

theorem Word.x_val (w : Word) : w.x.val = w.toNat / 256 % 16 := by
  simp [Word.x, Nat.shiftRight_eq_div_pow]

theorem Word.y_val (w : Word) : w.y.val = w.toNat / 16 % 16 := by
  simp [Word.y, Nat.shiftRight_eq_div_pow]

theorem Word.n_toNat (w : Word) : w.n.toNat = w.toNat % 16 := by
  simp [Word.n, BitVec.extractLsb'_toNat]

theorem Word.kk_toNat (w : Word) : w.kk.toNat = w.toNat % 256 := by
  simp [Word.kk, BitVec.extractLsb'_toNat]

theorem Word.nnn_toNat (w : Word) : w.nnn.toNat = w.toNat % 4096 := by
  simp [Word.nnn, BitVec.extractLsb'_toNat]

/-! ### The formats as numbers (R72) -/

theorem encodeA_toNat (f : Nibble) (nnn : Addr) : (encodeA f nnn).toNat = f.toNat * 4096 + nnn.toNat := by
  rw [encodeA, BitVec.toNat_append, ← Nat.shiftLeft_add_eq_or_of_lt nnn.isLt, Nat.shiftLeft_eq]

theorem encodeXK_toNat (f : Nibble) (x : Reg) (kk : Byte) :
    (encodeXK f x kk).toNat = f.toNat * 4096 + x.val * 256 + kk.toNat := by
  rw [encodeXK, BitVec.toNat_append, BitVec.toNat_append, ← Nat.shiftLeft_add_eq_or_of_lt kk.isLt,
    ← Nat.shiftLeft_add_eq_or_of_lt (BitVec.isLt _), Nat.shiftLeft_eq, Nat.shiftLeft_eq]
  simp; omega

theorem encodeXYN_toNat (f : Nibble) (x y : Reg) (n : Nibble) :
    (encodeXYN f x y n).toNat = f.toNat * 4096 + x.val * 256 + y.val * 16 + n.toNat := by
  rw [encodeXYN, BitVec.toNat_append, BitVec.toNat_append, BitVec.toNat_append,
    ← Nat.shiftLeft_add_eq_or_of_lt n.isLt, ← Nat.shiftLeft_add_eq_or_of_lt (BitVec.isLt _),
    ← Nat.shiftLeft_add_eq_or_of_lt (BitVec.isLt _), Nat.shiftLeft_eq, Nat.shiftLeft_eq, Nat.shiftLeft_eq]
  simp; omega

/-- The format written as digits is the encoder's. -/
theorem wordA_eq {f : Nat} (_hf : f < 16) (nnn : Addr) : Machine.wordA f nnn = encodeA (BitVec.ofNat 4 f) nnn := by
  apply BitVec.eq_of_toNat_eq
  have := nnn.isLt
  rw [encodeA_toNat, Machine.wordA, BitVec.toNat_ofNat, BitVec.toNat_ofNat]; omega

theorem wordXK_eq {f : Nat} (_hf : f < 16) (x : Reg) (kk : Byte) :
    Machine.wordXK f x kk = encodeXK (BitVec.ofNat 4 f) x kk := by
  apply BitVec.eq_of_toNat_eq
  have := kk.isLt; have := x.isLt
  rw [encodeXK_toNat, Machine.wordXK, BitVec.toNat_ofNat, BitVec.toNat_ofNat]; omega

theorem wordXYN_eq {f : Nat} (_hf : f < 16) (x y : Reg) (n : Nibble) :
    Machine.wordXYN f x y n = encodeXYN (BitVec.ofNat 4 f) x y n := by
  apply BitVec.eq_of_toNat_eq
  have := n.isLt; have := x.isLt; have := y.isLt
  rw [encodeXYN_toNat, Machine.wordXYN, BitVec.toNat_ofNat, BitVec.toNat_ofNat]; omega

/-! ### The fields of an encoded word -/

@[simp] theorem family_encodeA (f : Nibble) (nnn : Addr) : Word.family (encodeA f nnn) = f := by
  apply BitVec.eq_of_toNat_eq
  have := nnn.isLt
  rw [Word.family_toNat, encodeA_toNat]; omega

@[simp] theorem nnn_encodeA (f : Nibble) (nnn : Addr) : Word.nnn (encodeA f nnn) = nnn := by
  apply BitVec.eq_of_toNat_eq
  have := nnn.isLt
  rw [Word.nnn_toNat, encodeA_toNat]; omega

@[simp] theorem family_encodeXK (f : Nibble) (x : Reg) (kk : Byte) : Word.family (encodeXK f x kk) = f := by
  apply BitVec.eq_of_toNat_eq
  have := kk.isLt; have := x.isLt
  rw [Word.family_toNat, encodeXK_toNat]; omega

@[simp] theorem x_encodeXK (f : Nibble) (x : Reg) (kk : Byte) : Word.x (encodeXK f x kk) = x := by
  apply Fin.ext
  have := kk.isLt; have := x.isLt
  rw [Word.x_val, encodeXK_toNat]; omega

@[simp] theorem kk_encodeXK (f : Nibble) (x : Reg) (kk : Byte) : Word.kk (encodeXK f x kk) = kk := by
  apply BitVec.eq_of_toNat_eq
  have := kk.isLt; have := x.isLt
  rw [Word.kk_toNat, encodeXK_toNat]; omega

@[simp] theorem family_encodeXYN (f : Nibble) (x y : Reg) (n : Nibble) : Word.family (encodeXYN f x y n) = f := by
  apply BitVec.eq_of_toNat_eq
  have := n.isLt; have := x.isLt; have := y.isLt
  rw [Word.family_toNat, encodeXYN_toNat]; omega

@[simp] theorem x_encodeXYN (f : Nibble) (x y : Reg) (n : Nibble) : Word.x (encodeXYN f x y n) = x := by
  apply Fin.ext
  have := n.isLt; have := x.isLt; have := y.isLt
  rw [Word.x_val, encodeXYN_toNat]; omega

@[simp] theorem y_encodeXYN (f : Nibble) (x y : Reg) (n : Nibble) : Word.y (encodeXYN f x y n) = y := by
  apply Fin.ext
  have := n.isLt; have := x.isLt; have := y.isLt
  rw [Word.y_val, encodeXYN_toNat]; omega

@[simp] theorem n_encodeXYN (f : Nibble) (x y : Reg) (n : Nibble) : Word.n (encodeXYN f x y n) = n := by
  apply BitVec.eq_of_toNat_eq
  have := n.isLt
  rw [Word.n_toNat, encodeXYN_toNat]; omega

/-! ### Words and bytes (spec/20_memory.md R52) -/

theorem bytesToWord_toNat (high low : Byte) : (bytesToWord high low).toNat = high.toNat * 256 + low.toNat := by
  rw [bytesToWord, BitVec.toNat_append, ← Nat.shiftLeft_add_eq_or_of_lt low.isLt, Nat.shiftLeft_eq]

/-- The bytes of a word make the word again. -/
theorem bytesToWord_wordBytes (w : Word) : bytesToWord (w.extractLsb' 8 8) (w.extractLsb' 0 8) = w := by
  apply BitVec.eq_of_toNat_eq
  have := w.isLt
  rw [bytesToWord_toNat, BitVec.extractLsb'_toNat, BitVec.extractLsb'_toNat, Nat.shiftRight_eq_div_pow]
  simp; omega

theorem decode_wordBytes (w : Word) (rest : List Byte) : decode (wordBytes w ++ rest) = .ok (decodeWord w, rest) := by
  simp [wordBytes, decode, bytesToWord_wordBytes]

end Sys2Proof
end

