-- ==== Sys2Proof/Laws/State.lean ====
section
/-! SUPPORT. One lemma per field per update of State, each true by rfl, so that no proof unfolds a record update. -/

namespace Sys2Proof.Machine

/-! ### setV -/

@[simp] theorem State.setV_v (s : State) (x : Reg) (b : Byte) : (s.setV x b).v = s.v.set x b := rfl
@[simp] theorem State.setV_i (s : State) (x : Reg) (b : Byte) : (s.setV x b).i = s.i := rfl
@[simp] theorem State.setV_pc (s : State) (x : Reg) (b : Byte) : (s.setV x b).pc = s.pc := rfl
@[simp] theorem State.setV_sp (s : State) (x : Reg) (b : Byte) : (s.setV x b).sp = s.sp := rfl
@[simp] theorem State.setV_stack (s : State) (x : Reg) (b : Byte) : (s.setV x b).stack = s.stack := rfl
@[simp] theorem State.setV_dt (s : State) (x : Reg) (b : Byte) : (s.setV x b).dt = s.dt := rfl
@[simp] theorem State.setV_st (s : State) (x : Reg) (b : Byte) : (s.setV x b).st = s.st := rfl
@[simp] theorem State.setV_key (s : State) (x : Reg) (b : Byte) : (s.setV x b).key = s.key := rfl
@[simp] theorem State.setV_fb (s : State) (x : Reg) (b : Byte) : (s.setV x b).fb = s.fb := rfl
@[simp] theorem State.setV_mem (s : State) (x : Reg) (b : Byte) : (s.setV x b).mem = s.mem := rfl
@[simp] theorem State.setV_fault (s : State) (x : Reg) (b : Byte) : (s.setV x b).fault = s.fault := rfl
@[simp] theorem State.setV_opcode (s : State) (x : Reg) (b : Byte) : (s.setV x b).opcode = s.opcode := rfl
@[simp] theorem State.setV_rngSeed (s : State) (x : Reg) (b : Byte) : (s.setV x b).rngSeed = s.rngSeed := rfl
@[simp] theorem State.setV_rngDraws (s : State) (x : Reg) (b : Byte) : (s.setV x b).rngDraws = s.rngDraws := rfl
@[simp] theorem State.setV_randArg (s : State) (x : Reg) (b : Byte) : (s.setV x b).randArg = s.randArg := rfl

/-! ### loadV -/

@[simp] theorem State.loadV_v (s : State) (bs : List Byte) : (s.loadV bs).v = replaceFirst s.v bs := by unfold State.loadV; rfl
@[simp] theorem State.loadV_i (s : State) (bs : List Byte) : (s.loadV bs).i = s.i := by unfold State.loadV; rfl
@[simp] theorem State.loadV_pc (s : State) (bs : List Byte) : (s.loadV bs).pc = s.pc := by unfold State.loadV; rfl
@[simp] theorem State.loadV_sp (s : State) (bs : List Byte) : (s.loadV bs).sp = s.sp := by unfold State.loadV; rfl
@[simp] theorem State.loadV_stack (s : State) (bs : List Byte) : (s.loadV bs).stack = s.stack := by unfold State.loadV; rfl
@[simp] theorem State.loadV_dt (s : State) (bs : List Byte) : (s.loadV bs).dt = s.dt := by unfold State.loadV; rfl
@[simp] theorem State.loadV_st (s : State) (bs : List Byte) : (s.loadV bs).st = s.st := by unfold State.loadV; rfl
@[simp] theorem State.loadV_key (s : State) (bs : List Byte) : (s.loadV bs).key = s.key := by unfold State.loadV; rfl
@[simp] theorem State.loadV_fb (s : State) (bs : List Byte) : (s.loadV bs).fb = s.fb := by unfold State.loadV; rfl
@[simp] theorem State.loadV_mem (s : State) (bs : List Byte) : (s.loadV bs).mem = s.mem := by unfold State.loadV; rfl
@[simp] theorem State.loadV_fault (s : State) (bs : List Byte) : (s.loadV bs).fault = s.fault := by unfold State.loadV; rfl
@[simp] theorem State.loadV_opcode (s : State) (bs : List Byte) : (s.loadV bs).opcode = s.opcode := by unfold State.loadV; rfl
@[simp] theorem State.loadV_rngSeed (s : State) (bs : List Byte) : (s.loadV bs).rngSeed = s.rngSeed := by unfold State.loadV; rfl
@[simp] theorem State.loadV_rngDraws (s : State) (bs : List Byte) : (s.loadV bs).rngDraws = s.rngDraws := by unfold State.loadV; rfl
@[simp] theorem State.loadV_randArg (s : State) (bs : List Byte) : (s.loadV bs).randArg = s.randArg := by unfold State.loadV; rfl

/-! ### setI -/

@[simp] theorem State.setI_v (s : State) (w : Word) : (s.setI w).v = s.v := rfl
@[simp] theorem State.setI_i (s : State) (w : Word) : (s.setI w).i = w := rfl
@[simp] theorem State.setI_pc (s : State) (w : Word) : (s.setI w).pc = s.pc := rfl
@[simp] theorem State.setI_sp (s : State) (w : Word) : (s.setI w).sp = s.sp := rfl
@[simp] theorem State.setI_stack (s : State) (w : Word) : (s.setI w).stack = s.stack := rfl
@[simp] theorem State.setI_dt (s : State) (w : Word) : (s.setI w).dt = s.dt := rfl
@[simp] theorem State.setI_st (s : State) (w : Word) : (s.setI w).st = s.st := rfl
@[simp] theorem State.setI_key (s : State) (w : Word) : (s.setI w).key = s.key := rfl
@[simp] theorem State.setI_fb (s : State) (w : Word) : (s.setI w).fb = s.fb := rfl
@[simp] theorem State.setI_mem (s : State) (w : Word) : (s.setI w).mem = s.mem := rfl
@[simp] theorem State.setI_fault (s : State) (w : Word) : (s.setI w).fault = s.fault := rfl
@[simp] theorem State.setI_opcode (s : State) (w : Word) : (s.setI w).opcode = s.opcode := rfl
@[simp] theorem State.setI_rngSeed (s : State) (w : Word) : (s.setI w).rngSeed = s.rngSeed := rfl
@[simp] theorem State.setI_rngDraws (s : State) (w : Word) : (s.setI w).rngDraws = s.rngDraws := rfl
@[simp] theorem State.setI_randArg (s : State) (w : Word) : (s.setI w).randArg = s.randArg := rfl

/-! ### setPc -/

@[simp] theorem State.setPc_v (s : State) (w : Word) : (s.setPc w).v = s.v := rfl
@[simp] theorem State.setPc_i (s : State) (w : Word) : (s.setPc w).i = s.i := rfl
@[simp] theorem State.setPc_pc (s : State) (w : Word) : (s.setPc w).pc = w := rfl
@[simp] theorem State.setPc_sp (s : State) (w : Word) : (s.setPc w).sp = s.sp := rfl
@[simp] theorem State.setPc_stack (s : State) (w : Word) : (s.setPc w).stack = s.stack := rfl
@[simp] theorem State.setPc_dt (s : State) (w : Word) : (s.setPc w).dt = s.dt := rfl
@[simp] theorem State.setPc_st (s : State) (w : Word) : (s.setPc w).st = s.st := rfl
@[simp] theorem State.setPc_key (s : State) (w : Word) : (s.setPc w).key = s.key := rfl
@[simp] theorem State.setPc_fb (s : State) (w : Word) : (s.setPc w).fb = s.fb := rfl
@[simp] theorem State.setPc_mem (s : State) (w : Word) : (s.setPc w).mem = s.mem := rfl
@[simp] theorem State.setPc_fault (s : State) (w : Word) : (s.setPc w).fault = s.fault := rfl
@[simp] theorem State.setPc_opcode (s : State) (w : Word) : (s.setPc w).opcode = s.opcode := rfl
@[simp] theorem State.setPc_rngSeed (s : State) (w : Word) : (s.setPc w).rngSeed = s.rngSeed := rfl
@[simp] theorem State.setPc_rngDraws (s : State) (w : Word) : (s.setPc w).rngDraws = s.rngDraws := rfl
@[simp] theorem State.setPc_randArg (s : State) (w : Word) : (s.setPc w).randArg = s.randArg := rfl

/-! ### setDt -/

@[simp] theorem State.setDt_v (s : State) (b : Byte) : (s.setDt b).v = s.v := rfl
@[simp] theorem State.setDt_i (s : State) (b : Byte) : (s.setDt b).i = s.i := rfl
@[simp] theorem State.setDt_pc (s : State) (b : Byte) : (s.setDt b).pc = s.pc := rfl
@[simp] theorem State.setDt_sp (s : State) (b : Byte) : (s.setDt b).sp = s.sp := rfl
@[simp] theorem State.setDt_stack (s : State) (b : Byte) : (s.setDt b).stack = s.stack := rfl
@[simp] theorem State.setDt_dt (s : State) (b : Byte) : (s.setDt b).dt = b := rfl
@[simp] theorem State.setDt_st (s : State) (b : Byte) : (s.setDt b).st = s.st := rfl
@[simp] theorem State.setDt_key (s : State) (b : Byte) : (s.setDt b).key = s.key := rfl
@[simp] theorem State.setDt_fb (s : State) (b : Byte) : (s.setDt b).fb = s.fb := rfl
@[simp] theorem State.setDt_mem (s : State) (b : Byte) : (s.setDt b).mem = s.mem := rfl
@[simp] theorem State.setDt_fault (s : State) (b : Byte) : (s.setDt b).fault = s.fault := rfl
@[simp] theorem State.setDt_opcode (s : State) (b : Byte) : (s.setDt b).opcode = s.opcode := rfl
@[simp] theorem State.setDt_rngSeed (s : State) (b : Byte) : (s.setDt b).rngSeed = s.rngSeed := rfl
@[simp] theorem State.setDt_rngDraws (s : State) (b : Byte) : (s.setDt b).rngDraws = s.rngDraws := rfl
@[simp] theorem State.setDt_randArg (s : State) (b : Byte) : (s.setDt b).randArg = s.randArg := rfl

/-! ### setSt -/

@[simp] theorem State.setSt_v (s : State) (b : Byte) : (s.setSt b).v = s.v := rfl
@[simp] theorem State.setSt_i (s : State) (b : Byte) : (s.setSt b).i = s.i := rfl
@[simp] theorem State.setSt_pc (s : State) (b : Byte) : (s.setSt b).pc = s.pc := rfl
@[simp] theorem State.setSt_sp (s : State) (b : Byte) : (s.setSt b).sp = s.sp := rfl
@[simp] theorem State.setSt_stack (s : State) (b : Byte) : (s.setSt b).stack = s.stack := rfl
@[simp] theorem State.setSt_dt (s : State) (b : Byte) : (s.setSt b).dt = s.dt := rfl
@[simp] theorem State.setSt_st (s : State) (b : Byte) : (s.setSt b).st = b := rfl
@[simp] theorem State.setSt_key (s : State) (b : Byte) : (s.setSt b).key = s.key := rfl
@[simp] theorem State.setSt_fb (s : State) (b : Byte) : (s.setSt b).fb = s.fb := rfl
@[simp] theorem State.setSt_mem (s : State) (b : Byte) : (s.setSt b).mem = s.mem := rfl
@[simp] theorem State.setSt_fault (s : State) (b : Byte) : (s.setSt b).fault = s.fault := rfl
@[simp] theorem State.setSt_opcode (s : State) (b : Byte) : (s.setSt b).opcode = s.opcode := rfl
@[simp] theorem State.setSt_rngSeed (s : State) (b : Byte) : (s.setSt b).rngSeed = s.rngSeed := rfl
@[simp] theorem State.setSt_rngDraws (s : State) (b : Byte) : (s.setSt b).rngDraws = s.rngDraws := rfl
@[simp] theorem State.setSt_randArg (s : State) (b : Byte) : (s.setSt b).randArg = s.randArg := rfl

/-! ### setFb -/

@[simp] theorem State.setFb_v (s : State) (f : FrameBuffer) : (s.setFb f).v = s.v := rfl
@[simp] theorem State.setFb_i (s : State) (f : FrameBuffer) : (s.setFb f).i = s.i := rfl
@[simp] theorem State.setFb_pc (s : State) (f : FrameBuffer) : (s.setFb f).pc = s.pc := rfl
@[simp] theorem State.setFb_sp (s : State) (f : FrameBuffer) : (s.setFb f).sp = s.sp := rfl
@[simp] theorem State.setFb_stack (s : State) (f : FrameBuffer) : (s.setFb f).stack = s.stack := rfl
@[simp] theorem State.setFb_dt (s : State) (f : FrameBuffer) : (s.setFb f).dt = s.dt := rfl
@[simp] theorem State.setFb_st (s : State) (f : FrameBuffer) : (s.setFb f).st = s.st := rfl
@[simp] theorem State.setFb_key (s : State) (f : FrameBuffer) : (s.setFb f).key = s.key := rfl
@[simp] theorem State.setFb_fb (s : State) (f : FrameBuffer) : (s.setFb f).fb = f := rfl
@[simp] theorem State.setFb_mem (s : State) (f : FrameBuffer) : (s.setFb f).mem = s.mem := rfl
@[simp] theorem State.setFb_fault (s : State) (f : FrameBuffer) : (s.setFb f).fault = s.fault := rfl
@[simp] theorem State.setFb_opcode (s : State) (f : FrameBuffer) : (s.setFb f).opcode = s.opcode := rfl
@[simp] theorem State.setFb_rngSeed (s : State) (f : FrameBuffer) : (s.setFb f).rngSeed = s.rngSeed := rfl
@[simp] theorem State.setFb_rngDraws (s : State) (f : FrameBuffer) : (s.setFb f).rngDraws = s.rngDraws := rfl
@[simp] theorem State.setFb_randArg (s : State) (f : FrameBuffer) : (s.setFb f).randArg = s.randArg := rfl

/-! ### setMem -/

@[simp] theorem State.setMem_v (s : State) (m : Memory) : (s.setMem m).v = s.v := rfl
@[simp] theorem State.setMem_i (s : State) (m : Memory) : (s.setMem m).i = s.i := rfl
@[simp] theorem State.setMem_pc (s : State) (m : Memory) : (s.setMem m).pc = s.pc := rfl
@[simp] theorem State.setMem_sp (s : State) (m : Memory) : (s.setMem m).sp = s.sp := rfl
@[simp] theorem State.setMem_stack (s : State) (m : Memory) : (s.setMem m).stack = s.stack := rfl
@[simp] theorem State.setMem_dt (s : State) (m : Memory) : (s.setMem m).dt = s.dt := rfl
@[simp] theorem State.setMem_st (s : State) (m : Memory) : (s.setMem m).st = s.st := rfl
@[simp] theorem State.setMem_key (s : State) (m : Memory) : (s.setMem m).key = s.key := rfl
@[simp] theorem State.setMem_fb (s : State) (m : Memory) : (s.setMem m).fb = s.fb := rfl
@[simp] theorem State.setMem_mem (s : State) (m : Memory) : (s.setMem m).mem = m := rfl
@[simp] theorem State.setMem_fault (s : State) (m : Memory) : (s.setMem m).fault = s.fault := rfl
@[simp] theorem State.setMem_opcode (s : State) (m : Memory) : (s.setMem m).opcode = s.opcode := rfl
@[simp] theorem State.setMem_rngSeed (s : State) (m : Memory) : (s.setMem m).rngSeed = s.rngSeed := rfl
@[simp] theorem State.setMem_rngDraws (s : State) (m : Memory) : (s.setMem m).rngDraws = s.rngDraws := rfl
@[simp] theorem State.setMem_randArg (s : State) (m : Memory) : (s.setMem m).randArg = s.randArg := rfl

/-! ### skip -/

@[simp] theorem State.skip_v (s : State) : (s.skip).v = s.v := rfl
@[simp] theorem State.skip_i (s : State) : (s.skip).i = s.i := rfl
@[simp] theorem State.skip_pc (s : State) : (s.skip).pc = s.pc + 2 := rfl
@[simp] theorem State.skip_sp (s : State) : (s.skip).sp = s.sp := rfl
@[simp] theorem State.skip_stack (s : State) : (s.skip).stack = s.stack := rfl
@[simp] theorem State.skip_dt (s : State) : (s.skip).dt = s.dt := rfl
@[simp] theorem State.skip_st (s : State) : (s.skip).st = s.st := rfl
@[simp] theorem State.skip_key (s : State) : (s.skip).key = s.key := rfl
@[simp] theorem State.skip_fb (s : State) : (s.skip).fb = s.fb := rfl
@[simp] theorem State.skip_mem (s : State) : (s.skip).mem = s.mem := rfl
@[simp] theorem State.skip_fault (s : State) : (s.skip).fault = s.fault := rfl
@[simp] theorem State.skip_opcode (s : State) : (s.skip).opcode = s.opcode := rfl
@[simp] theorem State.skip_rngSeed (s : State) : (s.skip).rngSeed = s.rngSeed := rfl
@[simp] theorem State.skip_rngDraws (s : State) : (s.skip).rngDraws = s.rngDraws := rfl
@[simp] theorem State.skip_randArg (s : State) : (s.skip).randArg = s.randArg := rfl

/-! ### push -/

@[simp] theorem State.push_v (s : State) (w : Word) : (s.push w).v = s.v := rfl
@[simp] theorem State.push_i (s : State) (w : Word) : (s.push w).i = s.i := rfl
@[simp] theorem State.push_pc (s : State) (w : Word) : (s.push w).pc = s.pc := rfl
@[simp] theorem State.push_sp (s : State) (w : Word) : (s.push w).sp = s.sp + 1 := rfl
@[simp] theorem State.push_stack (s : State) (w : Word) : (s.push w).stack = s.stack.setIfInBounds s.sp.toNat w := rfl
@[simp] theorem State.push_dt (s : State) (w : Word) : (s.push w).dt = s.dt := rfl
@[simp] theorem State.push_st (s : State) (w : Word) : (s.push w).st = s.st := rfl
@[simp] theorem State.push_key (s : State) (w : Word) : (s.push w).key = s.key := rfl
@[simp] theorem State.push_fb (s : State) (w : Word) : (s.push w).fb = s.fb := rfl
@[simp] theorem State.push_mem (s : State) (w : Word) : (s.push w).mem = s.mem := rfl
@[simp] theorem State.push_fault (s : State) (w : Word) : (s.push w).fault = s.fault := rfl
@[simp] theorem State.push_opcode (s : State) (w : Word) : (s.push w).opcode = s.opcode := rfl
@[simp] theorem State.push_rngSeed (s : State) (w : Word) : (s.push w).rngSeed = s.rngSeed := rfl
@[simp] theorem State.push_rngDraws (s : State) (w : Word) : (s.push w).rngDraws = s.rngDraws := rfl
@[simp] theorem State.push_randArg (s : State) (w : Word) : (s.push w).randArg = s.randArg := rfl

/-! ### takeFault -/

@[simp] theorem State.takeFault_v (s : State) (c : FaultCode) (o : Word) (i : BitVec 17) : (s.takeFault c o i).v = s.v := rfl
@[simp] theorem State.takeFault_i (s : State) (c : FaultCode) (o : Word) (i : BitVec 17) : (s.takeFault c o i).i = s.i := rfl
@[simp] theorem State.takeFault_pc (s : State) (c : FaultCode) (o : Word) (i : BitVec 17) : (s.takeFault c o i).pc = s.pc := rfl
@[simp] theorem State.takeFault_sp (s : State) (c : FaultCode) (o : Word) (i : BitVec 17) : (s.takeFault c o i).sp = s.sp := rfl
@[simp] theorem State.takeFault_stack (s : State) (c : FaultCode) (o : Word) (i : BitVec 17) : (s.takeFault c o i).stack = s.stack := rfl
@[simp] theorem State.takeFault_dt (s : State) (c : FaultCode) (o : Word) (i : BitVec 17) : (s.takeFault c o i).dt = s.dt := rfl
@[simp] theorem State.takeFault_st (s : State) (c : FaultCode) (o : Word) (i : BitVec 17) : (s.takeFault c o i).st = s.st := rfl
@[simp] theorem State.takeFault_key (s : State) (c : FaultCode) (o : Word) (i : BitVec 17) : (s.takeFault c o i).key = s.key := rfl
@[simp] theorem State.takeFault_fb (s : State) (c : FaultCode) (o : Word) (i : BitVec 17) : (s.takeFault c o i).fb = s.fb := rfl
@[simp] theorem State.takeFault_mem (s : State) (c : FaultCode) (o : Word) (i : BitVec 17) : (s.takeFault c o i).mem = s.mem := rfl
@[simp] theorem State.takeFault_fault (s : State) (c : FaultCode) (o : Word) (i : BitVec 17) : (s.takeFault c o i).fault = ⟨c.number, s.pc, o, i⟩ := rfl
@[simp] theorem State.takeFault_opcode (s : State) (c : FaultCode) (o : Word) (i : BitVec 17) : (s.takeFault c o i).opcode = s.opcode := rfl
@[simp] theorem State.takeFault_rngSeed (s : State) (c : FaultCode) (o : Word) (i : BitVec 17) : (s.takeFault c o i).rngSeed = s.rngSeed := rfl
@[simp] theorem State.takeFault_rngDraws (s : State) (c : FaultCode) (o : Word) (i : BitVec 17) : (s.takeFault c o i).rngDraws = s.rngDraws := rfl
@[simp] theorem State.takeFault_randArg (s : State) (c : FaultCode) (o : Word) (i : BitVec 17) : (s.takeFault c o i).randArg = s.randArg := rfl

/-! ### advance -/

@[simp] theorem State.advance_v (s : State) : (s.advance).v = s.v := rfl
@[simp] theorem State.advance_i (s : State) : (s.advance).i = s.i := rfl
@[simp] theorem State.advance_pc (s : State) : (s.advance).pc = s.pc + 2 := rfl
@[simp] theorem State.advance_sp (s : State) : (s.advance).sp = s.sp := rfl
@[simp] theorem State.advance_stack (s : State) : (s.advance).stack = s.stack := rfl
@[simp] theorem State.advance_dt (s : State) : (s.advance).dt = s.dt := rfl
@[simp] theorem State.advance_st (s : State) : (s.advance).st = s.st := rfl
@[simp] theorem State.advance_key (s : State) : (s.advance).key = s.key := rfl
@[simp] theorem State.advance_fb (s : State) : (s.advance).fb = s.fb := rfl
@[simp] theorem State.advance_mem (s : State) : (s.advance).mem = s.mem := rfl
@[simp] theorem State.advance_fault (s : State) : (s.advance).fault = s.fault := rfl
@[simp] theorem State.advance_opcode (s : State) : (s.advance).opcode = s.fetch := rfl
@[simp] theorem State.advance_rngSeed (s : State) : (s.advance).rngSeed = s.rngSeed := rfl
@[simp] theorem State.advance_rngDraws (s : State) : (s.advance).rngDraws = s.rngDraws := rfl
@[simp] theorem State.advance_randArg (s : State) : (s.advance).randArg = s.randArg := rfl

/-! ### tick -/

@[simp] theorem State.tick_v (s : State) : (s.tick).v = s.v := rfl
@[simp] theorem State.tick_i (s : State) : (s.tick).i = s.i := rfl
@[simp] theorem State.tick_pc (s : State) : (s.tick).pc = s.pc := rfl
@[simp] theorem State.tick_sp (s : State) : (s.tick).sp = s.sp := rfl
@[simp] theorem State.tick_stack (s : State) : (s.tick).stack = s.stack := rfl
@[simp] theorem State.tick_dt (s : State) : (s.tick).dt = tickTimer s.dt := rfl
@[simp] theorem State.tick_st (s : State) : (s.tick).st = tickTimer s.st := rfl
@[simp] theorem State.tick_key (s : State) : (s.tick).key = s.key := rfl
@[simp] theorem State.tick_fb (s : State) : (s.tick).fb = s.fb := rfl
@[simp] theorem State.tick_mem (s : State) : (s.tick).mem = s.mem := rfl
@[simp] theorem State.tick_fault (s : State) : (s.tick).fault = s.fault := rfl
@[simp] theorem State.tick_opcode (s : State) : (s.tick).opcode = s.opcode := rfl
@[simp] theorem State.tick_rngSeed (s : State) : (s.tick).rngSeed = s.rngSeed := rfl
@[simp] theorem State.tick_rngDraws (s : State) : (s.tick).rngDraws = s.rngDraws := rfl
@[simp] theorem State.tick_randArg (s : State) : (s.tick).randArg = s.randArg := rfl

/-! ### spendDraw -/

@[simp] theorem State.spendDraw_v (s : State) : (s.spendDraw).v = s.v := rfl
@[simp] theorem State.spendDraw_i (s : State) : (s.spendDraw).i = s.i := rfl
@[simp] theorem State.spendDraw_pc (s : State) : (s.spendDraw).pc = s.pc := rfl
@[simp] theorem State.spendDraw_sp (s : State) : (s.spendDraw).sp = s.sp := rfl
@[simp] theorem State.spendDraw_stack (s : State) : (s.spendDraw).stack = s.stack := rfl
@[simp] theorem State.spendDraw_dt (s : State) : (s.spendDraw).dt = s.dt := rfl
@[simp] theorem State.spendDraw_st (s : State) : (s.spendDraw).st = s.st := rfl
@[simp] theorem State.spendDraw_key (s : State) : (s.spendDraw).key = s.key := rfl
@[simp] theorem State.spendDraw_fb (s : State) : (s.spendDraw).fb = s.fb := rfl
@[simp] theorem State.spendDraw_mem (s : State) : (s.spendDraw).mem = s.mem := rfl
@[simp] theorem State.spendDraw_fault (s : State) : (s.spendDraw).fault = s.fault := rfl
@[simp] theorem State.spendDraw_opcode (s : State) : (s.spendDraw).opcode = s.opcode := rfl
@[simp] theorem State.spendDraw_rngSeed (s : State) : (s.spendDraw).rngSeed = s.rngSeed := rfl
@[simp] theorem State.spendDraw_rngDraws (s : State) : (s.spendDraw).rngDraws = s.rngDraws + 1 := rfl
@[simp] theorem State.spendDraw_randArg (s : State) : (s.spendDraw).randArg = none := rfl

/-! ### setKeys -/

@[simp] theorem State.setKeys_v (s : State) (k : Vector Bool 16) : (s.setKeys k).v = s.v := rfl
@[simp] theorem State.setKeys_i (s : State) (k : Vector Bool 16) : (s.setKeys k).i = s.i := rfl
@[simp] theorem State.setKeys_pc (s : State) (k : Vector Bool 16) : (s.setKeys k).pc = s.pc := rfl
@[simp] theorem State.setKeys_sp (s : State) (k : Vector Bool 16) : (s.setKeys k).sp = s.sp := rfl
@[simp] theorem State.setKeys_stack (s : State) (k : Vector Bool 16) : (s.setKeys k).stack = s.stack := rfl
@[simp] theorem State.setKeys_dt (s : State) (k : Vector Bool 16) : (s.setKeys k).dt = s.dt := rfl
@[simp] theorem State.setKeys_st (s : State) (k : Vector Bool 16) : (s.setKeys k).st = s.st := rfl
@[simp] theorem State.setKeys_key (s : State) (k : Vector Bool 16) : (s.setKeys k).key = k := rfl
@[simp] theorem State.setKeys_fb (s : State) (k : Vector Bool 16) : (s.setKeys k).fb = s.fb := rfl
@[simp] theorem State.setKeys_mem (s : State) (k : Vector Bool 16) : (s.setKeys k).mem = s.mem := rfl
@[simp] theorem State.setKeys_fault (s : State) (k : Vector Bool 16) : (s.setKeys k).fault = s.fault := rfl
@[simp] theorem State.setKeys_opcode (s : State) (k : Vector Bool 16) : (s.setKeys k).opcode = s.opcode := rfl
@[simp] theorem State.setKeys_rngSeed (s : State) (k : Vector Bool 16) : (s.setKeys k).rngSeed = s.rngSeed := rfl
@[simp] theorem State.setKeys_rngDraws (s : State) (k : Vector Bool 16) : (s.setKeys k).rngDraws = s.rngDraws := rfl
@[simp] theorem State.setKeys_randArg (s : State) (k : Vector Bool 16) : (s.setKeys k).randArg = s.randArg := rfl

/-! ### setRand -/

@[simp] theorem State.setRand_v (s : State) (r : Option Byte) : (s.setRand r).v = s.v := rfl
@[simp] theorem State.setRand_i (s : State) (r : Option Byte) : (s.setRand r).i = s.i := rfl
@[simp] theorem State.setRand_pc (s : State) (r : Option Byte) : (s.setRand r).pc = s.pc := rfl
@[simp] theorem State.setRand_sp (s : State) (r : Option Byte) : (s.setRand r).sp = s.sp := rfl
@[simp] theorem State.setRand_stack (s : State) (r : Option Byte) : (s.setRand r).stack = s.stack := rfl
@[simp] theorem State.setRand_dt (s : State) (r : Option Byte) : (s.setRand r).dt = s.dt := rfl
@[simp] theorem State.setRand_st (s : State) (r : Option Byte) : (s.setRand r).st = s.st := rfl
@[simp] theorem State.setRand_key (s : State) (r : Option Byte) : (s.setRand r).key = s.key := rfl
@[simp] theorem State.setRand_fb (s : State) (r : Option Byte) : (s.setRand r).fb = s.fb := rfl
@[simp] theorem State.setRand_mem (s : State) (r : Option Byte) : (s.setRand r).mem = s.mem := rfl
@[simp] theorem State.setRand_fault (s : State) (r : Option Byte) : (s.setRand r).fault = s.fault := rfl
@[simp] theorem State.setRand_opcode (s : State) (r : Option Byte) : (s.setRand r).opcode = s.opcode := rfl
@[simp] theorem State.setRand_rngSeed (s : State) (r : Option Byte) : (s.setRand r).rngSeed = s.rngSeed := rfl
@[simp] theorem State.setRand_rngDraws (s : State) (r : Option Byte) : (s.setRand r).rngDraws = s.rngDraws := rfl
@[simp] theorem State.setRand_randArg (s : State) (r : Option Byte) : (s.setRand r).randArg = r := rfl

end Sys2Proof.Machine
end

