-- ==== Sys2Proof/Laws/Memory.lean ====
section
/-! SUPPORT. The laws of memory: read after write, and the canonical form (spec/20_memory.md R60; log 6). -/

namespace Sys2Proof.Machine.Memory

@[simp] theorem read_nil (a : Nat) : read [] a = resetByte a := rfl

theorem read_cons (c : Host.Cell) (m : Memory) (a : Nat) :
    read (c :: m) a = if a = c.1 then c.2 else read m a := by
  obtain ⟨k, v⟩ := c
  by_cases h : a = k
  · simp [read, h]
  · simp [read, List.lookup_cons, h, beq_false_of_ne h]

/-! ### A write is read back, and no other address changes -/

theorem read_filter_ne (m : Memory) (a x : Nat) :
    read (m.filter fun c => c.1 != a) x = if x = a then resetByte a else read m x := by
  induction m with
  | nil => split <;> simp_all
  | cons c m ih =>
    by_cases hc : c.1 = a
    · simp only [List.filter_cons, hc, bne_self_eq_false, Bool.false_eq_true, if_false, ih, read_cons]
      split <;> rfl
    · have hc' : (c.1 != a) = true := by simpa using hc
      simp only [List.filter_cons, hc', if_true, read_cons, ih]
      by_cases hx : x = a
      · subst hx; simp [Ne.symm hc]
      · simp [hx]

theorem read_insert (m : Memory) (a x : Nat) (b : Byte) (h : ∀ c ∈ m, c.1 ≠ a) :
    read (insert a b m) x = if x = a then b else read m x := by
  induction m with
  | nil => simp [insert, read_cons]
  | cons c m ih =>
    unfold insert
    split
    · rw [read_cons]
    · rw [read_cons, ih fun d hd => h d (List.mem_cons_of_mem _ hd), read_cons]
      have hca : c.1 ≠ a := h c List.mem_cons_self
      by_cases hx : x = a
      · subst hx; simp [Ne.symm hca]
      · simp [hx]

/-- A read returns the last byte written to its address, and a write leaves every other address alone (R60). -/
theorem read_write (m : Memory) (a x : Nat) (b : Byte) :
    (m.write a b).read x = if x = a then b else m.read x := by
  unfold write
  split
  next hb => simp only [read_filter_ne, hb]
  next hb =>
    rw [read_insert _ _ _ _ (by intro c hc; simpa using (List.mem_filter.mp hc).2), read_filter_ne]
    split <;> rfl

theorem read_write_same (m : Memory) (a : Nat) (b : Byte) : (m.write a b).read a = b := by
  simp [read_write]

theorem read_write_other {m : Memory} {a x : Nat} {b : Byte} (h : x ≠ a) :
    (m.write a b).read x = m.read x := by
  simp [read_write, h]

/-! ### Several bytes -/

/-- What an address holds after bytes are stored from a on. -/
theorem read_writeBytes (bs : List Byte) (m : Memory) (a x : Nat) :
    (m.writeBytes a bs).read x =
      if a ≤ x ∧ x < a + bs.length then bs.getD (x - a) 0 else m.read x := by
  induction bs generalizing m a with
  | nil => rw [writeBytes, if_neg (by simp)]
  | cons b bs ih =>
    rw [writeBytes, ih, read_write, List.length_cons]
    by_cases hx : x = a
    · subst hx; rw [if_neg (by omega), if_pos (by omega)]; simp
    · by_cases h : a + 1 ≤ x ∧ x < a + 1 + bs.length
      · rw [if_pos h, if_pos (by omega), show x - a = (x - (a + 1)) + 1 by omega, List.getD_cons_succ]
      · rw [if_neg h, if_neg hx, if_neg (by omega)]

/-- An address outside the stored bytes reads as before. -/
theorem read_writeBytes_outside {m : Memory} {a x : Nat} {bs : List Byte} (h : x < a ∨ a + bs.length ≤ x) :
    (m.writeBytes a bs).read x = m.read x := by
  rw [read_writeBytes, if_neg (by omega)]

@[simp] theorem length_readBytes (m : Memory) (a n : Nat) : (m.readBytes a n).length = n := by
  induction n generalizing a with
  | zero => rfl
  | succ n ih => simp [readBytes, ih]

/-- The k-th byte read from a on is that of address a + k. -/
theorem readBytes_getD (m : Memory) (a n k : Nat) (d : Byte) :
    (m.readBytes a n).getD k d = if k < n then m.read (a + k) else d := by
  induction n generalizing a k with
  | zero => simp [readBytes]
  | succ n ih =>
    cases k with
    | zero => simp [readBytes]
    | succ k => simp only [readBytes, List.getD_cons_succ, ih, Nat.succ_lt_succ_iff, show a + 1 + k = a + (k + 1) by omega]

/-! ### The canonical form -/

theorem wfFrom_cons {lo : Nat} {c : Host.Cell} {m : Memory} :
    wfFrom lo (c :: m) = true ↔ lo ≤ c.1 ∧ c.1 < 4096 ∧ c.2 ≠ resetByte c.1 ∧ wfFrom (c.1 + 1) m = true := by
  simp [wfFrom, and_assoc]

theorem wfFrom_mono {lo hi : Nat} {m : Memory} (h : wfFrom hi m = true) (hl : lo ≤ hi) : wfFrom lo m = true := by
  cases m with
  | nil => rfl
  | cons c m => rw [wfFrom_cons] at h ⊢; exact ⟨hl.trans h.1, h.2⟩

theorem wfFrom_filter {lo : Nat} {m : Memory} (p : Host.Cell → Bool) (h : wfFrom lo m = true) :
    wfFrom lo (m.filter p) = true := by
  induction m generalizing lo with
  | nil => rfl
  | cons c m ih =>
    rw [wfFrom_cons] at h
    obtain ⟨h1, h2, h3, h4⟩ := h
    rw [List.filter_cons]
    split
    · exact wfFrom_cons.mpr ⟨h1, h2, h3, ih h4⟩
    · exact wfFrom_mono (ih h4) (by omega)

theorem wfFrom_insert {lo a : Nat} {b : Byte} {m : Memory} (h : wfFrom lo m = true) (hlo : lo ≤ a) (ha : a < 4096)
    (hb : b ≠ resetByte a) (hm : ∀ c ∈ m, c.1 ≠ a) : wfFrom lo (insert a b m) = true := by
  induction m generalizing lo with
  | nil => exact wfFrom_cons.mpr ⟨hlo, ha, hb, rfl⟩
  | cons c m ih =>
    rw [wfFrom_cons] at h
    obtain ⟨h1, h2, h3, h4⟩ := h
    have hne : c.1 ≠ a := hm c List.mem_cons_self
    unfold insert
    split
    · exact wfFrom_cons.mpr ⟨hlo, ha, hb, wfFrom_cons.mpr ⟨by omega, h2, h3, h4⟩⟩
    · exact wfFrom_cons.mpr ⟨h1, h2, h3, ih h4 (by omega) fun d hd => hm d (List.mem_cons_of_mem _ hd)⟩

/-- A write inside the address space keeps the canonical form. -/
theorem wf_write {m : Memory} {a : Nat} {b : Byte} (h : m.wf = true) (ha : a < 4096) : (m.write a b).wf = true := by
  unfold wf write at *
  split
  · exact wfFrom_filter _ h
  next hb =>
    exact wfFrom_insert (wfFrom_filter _ h) (Nat.zero_le a) ha hb
      (by intro c hc; simpa using (List.mem_filter.mp hc).2)

/-- Storing bytes inside the address space keeps the canonical form. -/
theorem wf_writeBytes {m : Memory} {a : Nat} {bs : List Byte} (h : m.wf = true) (ha : a + bs.length ≤ 4096) :
    (m.writeBytes a bs).wf = true := by
  induction bs generalizing m a with
  | nil => exact h
  | cons b bs ih =>
    rw [List.length_cons] at ha
    exact ih (wf_write h (by omega)) (by omega)

end Sys2Proof.Machine.Memory
end

