-- ==== Sys2Proof/Laws/Ops.lean ====
section
/-! SUPPORT. What each shared operation can do, said once: register reads after updates, the checks of an access, stores and
loads of several bytes, fault entry, the stack, the fetch check. -/

namespace Sys2Proof.Machine

/-! ### Registers -/

@[simp] theorem State.getV_setV (s : State) (x r : Reg) (b : Byte) :
    (s.setV x b).getV r = if r = x then b else s.getV r := by
  by_cases h : r = x
  · subst h; simp [State.getV]
  · have : x.val ≠ r.val := fun e => h (Fin.ext e.symm)
    simp [State.getV, h, Vector.getElem_set_ne _ _ this]

@[simp] theorem State.getV_setFlag (s : State) (c : Bool) (r : Reg) :
    (s.setFlag c).getV r = if r = 15 then flagByte c else s.getV r := State.getV_setV s vf r _

@[simp] theorem State.getV_setResultFlag (s : State) (x r : Reg) (b : Byte) (c : Bool) :
    (s.setResultFlag x b c).getV r = if r = 15 then flagByte c else if r = x then b else s.getV r := by
  simp [State.setResultFlag]

@[simp] theorem State.getV_loadV (s : State) (bs : List Byte) (r : Reg) :
    (s.loadV bs).getV r = bs.getD r.val (s.getV r) := by
  simp [State.getV, replaceFirst]

@[simp] theorem State.getV_setI (s : State) (w : Word) (r : Reg) : (s.setI w).getV r = s.getV r := rfl
@[simp] theorem State.getV_setPc (s : State) (w : Word) (r : Reg) : (s.setPc w).getV r = s.getV r := rfl
@[simp] theorem State.getV_setDt (s : State) (b : Byte) (r : Reg) : (s.setDt b).getV r = s.getV r := rfl
@[simp] theorem State.getV_setSt (s : State) (b : Byte) (r : Reg) : (s.setSt b).getV r = s.getV r := rfl
@[simp] theorem State.getV_setFb (s : State) (f : FrameBuffer) (r : Reg) : (s.setFb f).getV r = s.getV r := rfl
@[simp] theorem State.getV_setMem (s : State) (m : Memory) (r : Reg) : (s.setMem m).getV r = s.getV r := rfl
@[simp] theorem State.getV_push (s : State) (w : Word) (r : Reg) : (s.push w).getV r = s.getV r := rfl
@[simp] theorem State.getV_advance (s : State) (r : Reg) : s.advance.getV r = s.getV r := rfl
@[simp] theorem State.getV_tick (s : State) (r : Reg) : s.tick.getV r = s.getV r := rfl
@[simp] theorem State.getV_spendDraw (s : State) (r : Reg) : s.spendDraw.getV r = s.getV r := rfl
@[simp] theorem State.getV_setRand (s : State) (b : Option Byte) (r : Reg) : (s.setRand b).getV r = s.getV r := rfl
@[simp] theorem State.getV_setKeys (s : State) (k : Vector Bool 16) (r : Reg) : (s.setKeys k).getV r = s.getV r := rfl

/-- Writing one register is a write of one register: the frame of `setV`. -/
theorem OnlyV_setV (s : State) (x : Reg) (b : Byte) : OnlyV x s (s.setV x b) :=
  ⟨fun r h => by simp [h], rfl⟩

/-- The frame of a result with a flag. -/
theorem OnlyVAndFlag_setResultFlag (s : State) (x : Reg) (b : Byte) (c : Bool) :
    OnlyVAndFlag x s (s.setResultFlag x b c) :=
  ⟨fun r h h' => by simp [h, h'], rfl⟩

@[simp] theorem flagByte_toNat (c : Bool) : (flagByte c).toNat = if c then 1 else 0 := by cases c <;> rfl

theorem State.skipIf_eq (s : State) (c : Bool) : s.skipIf c = { s with pc := if c then s.pc + 2 else s.pc } := by
  cases c <;> rfl

/-- The k-th of V0 to Vx is V[k]. -/
theorem State.upTo_getD (s : State) (x k : Reg) (d : Byte) (h : k ≤ x) : (s.upTo x).getD k.val d = s.getV k := by
  have hk : k.val < x.val + 1 := Nat.lt_succ_of_le h
  simp [State.upTo, State.getV, List.getD_eq_getElem?_getD, hk]

@[simp] theorem State.upTo_length (s : State) (x : Reg) : (s.upTo x).length = x.val + 1 := by
  simp [State.upTo]

/-! ### The checks of an access (spec/20_memory.md R54 to R56) -/

/-- No address of the access fails. -/
theorem firstFault_eq_none {check : Nat → Option FaultCode} {a n : Nat} :
    firstFault check a n = none ↔ ∀ k < n, check (a + k) = none := by
  induction n generalizing a with
  | zero => simp [firstFault]
  | succ n ih =>
    unfold firstFault
    cases h : check a with
    | some c => simp; exact ⟨0, by simp [h]⟩
    | none =>
      simp only [ih]
      constructor
      · intro hk k hkn
        cases k with
        | zero => simpa using h
        | succ k => have := hk k (by omega); rwa [show a + 1 + k = a + (k + 1) by omega] at this
      · intro hk k hkn
        have := hk (k + 1) (by omega)
        rwa [show a + (k + 1) = a + 1 + k by omega] at this

/-- The lowest failing address of the access is a + k. -/
theorem firstFault_eq_some {check : Nat → Option FaultCode} {a n k : Nat} {c : FaultCode} (hk : k < n)
    (hc : check (a + k) = some c) (hlow : ∀ j < k, check (a + j) = none) : firstFault check a n = some (c, a + k) := by
  induction n generalizing a k with
  | zero => omega
  | succ n ih =>
    unfold firstFault
    cases k with
    | zero => simp only [Nat.add_zero] at hc; simp [hc]
    | succ k =>
      have h0 : check a = none := by simpa using hlow 0 (by omega)
      simp only [h0]
      rw [show a + (k + 1) = a + 1 + k by omega] at hc ⊢
      refine ih (by omega) hc fun j hj => ?_
      have := hlow (j + 1) (by omega)
      rwa [show a + (j + 1) = a + 1 + j by omega] at this

/-- A read of n bytes passes exactly when it is empty or ends inside memory. -/
theorem firstFault_read_none {a n : Nat} : firstFault readFault a n = none ↔ n = 0 ∨ a + n ≤ 4096 := by
  rw [firstFault_eq_none]
  constructor
  · intro h
    rcases Nat.eq_zero_or_pos n with h0 | h0
    · exact .inl h0
    · have := h (n - 1) (by omega)
      unfold readFault at this
      split at this
      · cases this
      · right; omega
  · intro h k hk
    rw [readFault, if_neg (by omega)]

/-- A read past memory fails at the lowest address of 4096 or more. -/
theorem firstFault_read_some {a n : Nat} (h0 : n ≠ 0) (h : 4096 < a + n) :
    firstFault readFault a n = some (.memOutOfRange, max a 4096) := by
  have hm : a + (max a 4096 - a) = max a 4096 := by omega
  rw [← hm]
  refine firstFault_eq_some (by omega) ?_ fun j hj => ?_
  · rw [readFault, if_pos (by omega)]
  · rw [readFault, if_neg (by omega)]

/-- A write of n bytes passes exactly when it is empty or lies in 0x200 to 0xFFF. -/
theorem firstFault_write_none {a n : Nat} : firstFault writeFault a n = none ↔ n = 0 ∨ (0x200 ≤ a ∧ a + n ≤ 4096) := by
  rw [firstFault_eq_none]
  constructor
  · intro h
    rcases Nat.eq_zero_or_pos n with h0 | h0
    · exact .inl h0
    · have h1 := h 0 h0
      have h2 := h (n - 1) (by omega)
      unfold writeFault at h1 h2
      split at h1
      · cases h1
      · split at h1
        · cases h1
        · split at h2
          · cases h2
          · right; omega
  · intro h k hk
    rw [writeFault, if_neg (by omega), if_neg (by omega)]

/-- A write that begins below 0x200 fails there. -/
theorem firstFault_write_reserved {a n : Nat} (h0 : n ≠ 0) (h : a < 0x200) :
    firstFault writeFault a n = some (.reservedWrite, a) := by
  refine firstFault_eq_some (k := 0) (by omega) ?_ fun j hj => by omega
  rw [writeFault, if_neg (by omega), if_pos (by omega)]

/-- A write from 0x200 or above that runs past memory fails at the lowest address of 4096 or more. -/
theorem firstFault_write_past {a n : Nat} (h0 : n ≠ 0) (hl : 0x200 ≤ a) (h : 4096 < a + n) :
    firstFault writeFault a n = some (.memOutOfRange, max a 4096) := by
  have hm : a + (max a 4096 - a) = max a 4096 := by omega
  rw [← hm]
  refine firstFault_eq_some (by omega) ?_ fun j hj => ?_
  · rw [writeFault, if_pos (by omega)]
  · rw [writeFault, if_neg (by omega), if_neg (by omega)]

/-! ### Faults in the execute phase -/

theorem raise_eq (c : FaultCode) (info : Nat) (s : State) : raise c info s = .next (raised c.number info s) := rfl

theorem FaultCode.number_ne_zero (c : FaultCode) : c.number ≠ 0 := by cases c <;> decide

@[simp] theorem State.faulted_iff (s : State) : s.faulted = true ↔ s.fault.code ≠ 0 := by simp [State.faulted]

theorem raised_faulted (c : FaultCode) (info : Nat) (s : State) : (raised c.number info s).faulted = true := by
  exact (State.faulted_iff _).mpr c.number_ne_zero

/-! ### Loads and stores of several bytes -/

theorem State.loadBytes_ok (s : State) {n : Nat} (use : List Byte → State) (h : n = 0 ∨ s.i.toNat + n ≤ 4096) :
    s.loadBytes n use = .next (use (s.mem.readBytes s.i.toNat n)) := by
  simp [State.loadBytes, firstFault_read_none.mpr h]

theorem State.loadBytes_past (s : State) {n : Nat} (use : List Byte → State) (h0 : n ≠ 0) (h : 4096 < s.i.toNat + n) :
    s.loadBytes n use = .next (raised 5 (max s.i.toNat 4096) s) := by
  simp only [State.loadBytes, firstFault_read_some h0 h]; rfl

theorem State.storeBytes_ok (s : State) {bs : List Byte} (hl : 0x200 ≤ s.i.toNat) (h : s.i.toNat + bs.length ≤ 4096) :
    s.storeBytes bs = .next (s.setMem (s.mem.writeBytes s.i.toNat bs)) := by
  simp [State.storeBytes, firstFault_write_none.mpr (.inr ⟨hl, h⟩)]

theorem State.storeBytes_reserved (s : State) {bs : List Byte} (h0 : bs.length ≠ 0) (h : s.i.toNat < 0x200) :
    s.storeBytes bs = .next (raised 6 s.i.toNat s) := by
  simp only [State.storeBytes, firstFault_write_reserved h0 h]; rfl

theorem State.storeBytes_past (s : State) {bs : List Byte} (h0 : bs.length ≠ 0) (hl : 0x200 ≤ s.i.toNat)
    (h : 4096 < s.i.toNat + bs.length) : s.storeBytes bs = .next (raised 5 (max s.i.toNat 4096) s) := by
  simp only [State.storeBytes, firstFault_write_past h0 hl h]; rfl

/-- Everything a load can do. -/
theorem State.loadBytes_cases {s t : State} {n : Nat} {use : List Byte → State} (h : s.loadBytes n use = .next t) :
    ((n = 0 ∨ s.i.toNat + n ≤ 4096) ∧ t = use (s.mem.readBytes s.i.toNat n)) ∨
    (n ≠ 0 ∧ 4096 < s.i.toNat + n ∧ t = raised 5 (max s.i.toNat 4096) s) := by
  by_cases h1 : n = 0 ∨ s.i.toNat + n ≤ 4096
  · rw [s.loadBytes_ok use h1] at h; exact .inl ⟨h1, by injection h with h; exact h.symm⟩
  · rw [s.loadBytes_past use (by omega) (by omega)] at h
    exact .inr ⟨by omega, by omega, by injection h with h; exact h.symm⟩

/-- Everything a store of at least one byte can do. -/
theorem State.storeBytes_cases {s t : State} {bs : List Byte} (h0 : bs.length ≠ 0) (h : s.storeBytes bs = .next t) :
    (0x200 ≤ s.i.toNat ∧ s.i.toNat + bs.length ≤ 4096 ∧ t = s.setMem (s.mem.writeBytes s.i.toNat bs)) ∨
    (s.i.toNat < 0x200 ∧ t = raised 6 s.i.toNat s) ∨
    (4096 < s.i.toNat + bs.length ∧ t = raised 5 (max s.i.toNat 4096) s) := by
  by_cases h1 : s.i.toNat < 0x200
  · rw [s.storeBytes_reserved h0 h1] at h; exact .inr (.inl ⟨h1, by injection h with h; exact h.symm⟩)
  · by_cases h2 : s.i.toNat + bs.length ≤ 4096
    · rw [s.storeBytes_ok (by omega) h2] at h
      exact .inl ⟨by omega, h2, by injection h with h; exact h.symm⟩
    · rw [s.storeBytes_past h0 (by omega) (by omega)] at h
      exact .inr (.inr ⟨by omega, by injection h with h; exact h.symm⟩)

/-! ### The stack -/

/-- The entry below SP, for an SP of 1 to 16. -/
theorem State.pop_eq (s : State) (j : Fin 16) (h : s.sp.toNat = j.val + 1) :
    s.pop = some (s.stack[j], { s with sp := BitVec.ofNat 8 j.val }) := by
  have h1 : s.sp.toNat - 1 = j.val := by omega
  have h2 : s.sp - 1 = BitVec.ofNat 8 j.val := by
    apply BitVec.eq_of_toNat_eq
    rw [BitVec.toNat_sub, BitVec.toNat_ofNat]
    simp; omega
  have h3 : s.stack[j.val]? = some s.stack[j] := by simp
  simp only [State.pop, h1, h2, h3]

/-- An SP above 16 is over no entry. -/
theorem State.pop_illegal (s : State) (h : 16 < s.sp.toNat) : s.pop = none := by
  have h3 : s.stack[s.sp.toNat - 1]? = none := by simp; omega
  simp only [State.pop, h3]

/-! ### The fetch check and the end of a Step -/

theorem fetchFault_none {pc : Word} :
    fetchFault pc = none ↔ 0x200 ≤ pc.toNat ∧ pc.toNat ≤ 0xFFE ∧ pc.toNat % 2 = 0 := by
  unfold fetchFault
  split
  · simp; omega
  · split <;> simp <;> omega

theorem State.Ready.fetchFault {s : State} (h : s.Ready) : fetchFault s.pc = none :=
  fetchFault_none.mpr ⟨h.low, h.high, h.even⟩

theorem State.finish_faulted {s t : State} (h : t.fault.code ≠ 0) : s.finish t = { s with fault := t.fault } := by
  rw [State.finish, if_pos (t.faulted_iff.mpr h)]

theorem State.finish_ok {s t : State} (h : t.fault.code = 0) : s.finish t = t.tick.spendDraw := by
  rw [State.finish, if_neg (by simp [h])]

theorem tickTimer_toNat (t : Byte) : (tickTimer t).toNat = t.toNat - 1 := by
  unfold tickTimer
  split
  next h => simp [h]
  next h =>
    have : t.toNat ≠ 0 := fun e => h (BitVec.eq_of_toNat_eq (by simpa using e))
    rw [BitVec.toNat_sub]; simp; omega

end Sys2Proof.Machine
end

