-- ==== Sys2Proof/Laws/Draw.lean ====
section
/-! SUPPORT. What the drawing operations do to one pixel and to the collision flag (spec/41_display.md R121 to R124). -/

namespace Sys2Proof.Machine

@[simp] theorem FrameBuffer.pixel_blank (r c : Nat) : FrameBuffer.blank.pixel r c = false := by
  unfold FrameBuffer.pixel FrameBuffer.blank
  split
  next h => simp
  next h => rfl

theorem FrameBuffer.pixel_off (f : FrameBuffer) {r c : Nat} (h : ¬(c < 64 ∧ r < 32)) : f.pixel r c = false := by
  rw [pixel, dif_neg h]

/-- One toggle changes the pixel it names, when that is on the grid, and no other. -/
theorem pixel_togglePixel (py px r c : Nat) (d : FrameBuffer × Bool) :
    (togglePixel py px d).1.pixel r c =
      if py = r ∧ px = c ∧ c < 64 ∧ r < 32 then !d.1.pixel r c else d.1.pixel r c := by
  unfold togglePixel
  split
  next h =>
    by_cases hg : c < 64 ∧ r < 32
    · by_cases hr : py = r
      · by_cases hc : px = c
        · subst hr; subst hc; simp [FrameBuffer.pixel, hg]
        · subst hr; simp [FrameBuffer.pixel, hg, hc, Vector.getElem_set_ne _ _ hc]
      · simp [FrameBuffer.pixel, hg, hr, Vector.getElem_set_ne _ _ hr]
    · rw [FrameBuffer.pixel_off _ hg, FrameBuffer.pixel_off _ hg, if_neg (by tauto)]
  next h => rw [if_neg]; rintro ⟨rfl, rfl, hc, hr⟩; exact h ⟨hc, hr⟩

/-- One toggle notes a collision exactly when its pixel was on. -/
theorem collision_togglePixel (py px : Nat) (d : FrameBuffer × Bool) :
    (togglePixel py px d).2 = (d.2 || d.1.pixel py px) := by
  unfold togglePixel
  split
  next h => simp [FrameBuffer.pixel, h]
  next h => simp [FrameBuffer.pixel_off _ h]

/-! ### The first k bits of a row, then a row -/

/-- The row's bits drawn so far. -/
def drawBits (py ox : Nat) (row : Byte) (k : Nat) (d : FrameBuffer × Bool) : FrameBuffer × Bool :=
  (List.range k).foldl (fun d c => if row.getLsbD (7 - c) then togglePixel py (ox + c) d else d) d

theorem drawBits_succ (py ox : Nat) (row : Byte) (k : Nat) (d : FrameBuffer × Bool) :
    drawBits py ox row (k + 1) d =
      if row.getLsbD (7 - k) then togglePixel py (ox + k) (drawBits py ox row k d) else drawBits py ox row k d := by
  simp [drawBits, List.range_succ]

theorem pixel_drawBits (py ox : Nat) (row : Byte) (k r c : Nat) (d : FrameBuffer × Bool) :
    (drawBits py ox row k d).1.pixel r c =
      (d.1.pixel r c ^^ (decide (py = r ∧ ox ≤ c ∧ c < ox + k ∧ c < 64 ∧ r < 32) && row.getLsbD (7 - (c - ox)))) := by
  induction k with
  | zero =>
    have h : ¬(py = r ∧ ox ≤ c ∧ c < ox + 0 ∧ c < 64 ∧ r < 32) := by omega
    simp only [h, decide_false, Bool.false_and, Bool.xor_false]
    rfl
  | succ k ih =>
    rw [drawBits_succ]
    by_cases hnew : py = r ∧ ox + k = c ∧ c < 64 ∧ r < 32
    · obtain ⟨rfl, rfl, hc, hr⟩ := hnew
      have hold : (drawBits py ox row k d).1.pixel py (ox + k) = d.1.pixel py (ox + k) := by rw [ih]; simp
      cases hb : row.getLsbD (7 - k) <;> simp [pixel_togglePixel, hold, hc, hr, hb]
    · have hsame : decide (py = r ∧ ox ≤ c ∧ c < ox + (k + 1) ∧ c < 64 ∧ r < 32) =
          decide (py = r ∧ ox ≤ c ∧ c < ox + k ∧ c < 64 ∧ r < 32) := decide_eq_decide.mpr (by omega)
      rw [hsame, ← ih]
      split
      · rw [pixel_togglePixel, if_neg hnew]
      · rfl

theorem collision_drawBits (py ox : Nat) (row : Byte) (k : Nat) (d : FrameBuffer × Bool) :
    (drawBits py ox row k d).2 = true ↔
      d.2 = true ∨ ∃ j < k, row.getLsbD (7 - j) = true ∧ d.1.pixel py (ox + j) = true := by
  induction k with
  | zero => simp [drawBits]
  | succ k ih =>
    have hpix : (drawBits py ox row k d).1.pixel py (ox + k) = d.1.pixel py (ox + k) := by simp [pixel_drawBits]
    have hex : (∃ j < k + 1, row.getLsbD (7 - j) = true ∧ d.1.pixel py (ox + j) = true) ↔
        (∃ j < k, row.getLsbD (7 - j) = true ∧ d.1.pixel py (ox + j) = true) ∨
          (row.getLsbD (7 - k) = true ∧ d.1.pixel py (ox + k) = true) := by
      constructor
      · rintro ⟨j, hj, h⟩
        rcases Nat.lt_succ_iff_lt_or_eq.mp hj with hj | rfl
        · exact .inl ⟨j, hj, h⟩
        · exact .inr h
      · rintro (⟨j, hj, h⟩ | h)
        · exact ⟨j, by omega, h⟩
        · exact ⟨k, by omega, h⟩
    rw [drawBits_succ, hex]
    cases hb : row.getLsbD (7 - k)
    · simp [ih]
    · simp [collision_togglePixel, hpix, ih, or_assoc]

/-- A row toggles exactly the pixels its set bits fall on. -/
theorem pixel_drawRow (py ox : Nat) (row : Byte) (r c : Nat) (d : FrameBuffer × Bool) :
    (drawRow py ox row d).1.pixel r c =
      (d.1.pixel r c ^^ (decide (py = r ∧ ox ≤ c ∧ c < ox + 8 ∧ c < 64 ∧ r < 32) && row.getLsbD (7 - (c - ox)))) :=
  pixel_drawBits py ox row 8 r c d

theorem collision_drawRow (py ox : Nat) (row : Byte) (d : FrameBuffer × Bool) :
    (drawRow py ox row d).2 = true ↔
      d.2 = true ∨ ∃ j < 8, row.getLsbD (7 - j) = true ∧ d.1.pixel py (ox + j) = true :=
  collision_drawBits py ox row 8 d

/-! ### A sprite -/

/-- A sprite toggles exactly the pixels of the grid its set bits fall on. -/
theorem pixel_drawSprite (rows : List Byte) (oy ox r c : Nat) (d : FrameBuffer × Bool) :
    (drawSprite oy ox rows d).1.pixel r c =
      (d.1.pixel r c ^^ (decide (oy ≤ r ∧ r < oy + rows.length ∧ ox ≤ c ∧ c < ox + 8 ∧ c < 64 ∧ r < 32) &&
        (rows.getD (r - oy) 0).getLsbD (7 - (c - ox)))) := by
  induction rows generalizing oy d with
  | nil =>
    have h : ¬(oy ≤ r ∧ r < oy + ([] : List Byte).length ∧ ox ≤ c ∧ c < ox + 8 ∧ c < 64 ∧ r < 32) := by simp; omega
    simp only [h, decide_false, Bool.false_and, Bool.xor_false]
    rfl
  | cons row rows ih =>
    rw [drawSprite, ih, pixel_drawRow, List.length_cons]
    by_cases hr : oy = r
    · subst hr
      simp
    · by_cases hle : oy + 1 ≤ r
      · have h2 : (oy ≤ r ∧ r < oy + (rows.length + 1) ∧ ox ≤ c ∧ c < ox + 8 ∧ c < 64 ∧ r < 32) ↔
            (oy + 1 ≤ r ∧ r < oy + 1 + rows.length ∧ ox ≤ c ∧ c < ox + 8 ∧ c < 64 ∧ r < 32) := by omega
        have h3 : r - oy = (r - (oy + 1)) + 1 := by omega
        rw [h3, List.getD_cons_succ]
        simp [hr, h2]
      · have h1 : ¬ oy ≤ r := by omega
        simp [hr, hle, h1]

/-- A sprite collides exactly when one of its set bits falls on a pixel that was on. -/
theorem collision_drawSprite (rows : List Byte) (oy ox : Nat) (d : FrameBuffer × Bool) :
    (drawSprite oy ox rows d).2 = true ↔
      d.2 = true ∨ ∃ k j, k < rows.length ∧ j < 8 ∧ (rows.getD k 0).getLsbD (7 - j) = true ∧
        d.1.pixel (oy + k) (ox + j) = true := by
  induction rows generalizing oy d with
  | nil => simp [drawSprite]
  | cons row rows ih =>
    rw [drawSprite, ih, collision_drawRow]
    have hpix : ∀ k j, (drawRow oy ox row d).1.pixel (oy + 1 + k) (ox + j) = d.1.pixel (oy + (k + 1)) (ox + j) := by
      intro k j
      rw [pixel_drawRow, show oy + 1 + k = oy + (k + 1) by omega]
      simp
    simp only [hpix, List.length_cons]
    constructor
    · rintro ((h | ⟨j, hj, hb, hp⟩) | ⟨k, j, hk, hj, hb, hp⟩)
      · exact .inl h
      · exact .inr ⟨0, j, by omega, hj, by simpa using hb, by simpa using hp⟩
      · exact .inr ⟨k + 1, j, by omega, hj, by simpa using hb, hp⟩
    · rintro (h | ⟨k, j, hk, hj, hb, hp⟩)
      · exact .inl (.inl h)
      · cases k with
        | zero => exact .inl (.inr ⟨j, hj, by simpa using hb, by simpa using hp⟩)
        | succ k => exact .inr ⟨k, j, by omega, hj, by simpa using hb, hp⟩

end Sys2Proof.Machine
end

