-- ==== Sys2Proof/Laws/PerInstr.lean ====
section
/-! SUPPORT. The family RoundTrip: decoding the encoded word of a well-formed instruction gives it back, one lemma per
constructor. -/

namespace Sys2Proof.Laws.RoundTrip

/-- Decoding the word of i gives i, when i is well formed. -/
def Statement (i : Instr) : Prop := i.wellFormed = true → decodeWord (encode i) = i

/-! The unmapped words, family by family: the decoder and R77's table agree. -/

theorem family0 {w : Word} (h : isUnmappedWord w = true) : decodeFamily0 w = .unmapped w := by
  have h1 : w ≠ 0x00E0 := by rintro rfl; revert h; decide
  have h2 : w ≠ 0x00EE := by rintro rfl; revert h; decide
  rw [decodeFamily0, if_neg h1, if_neg h2]

theorem family8 {w : Word} (h : isUnmappedWord w = true) (hf : w.toNat / 4096 = 8) : decodeFamily8 w = .unmapped w := by
  unfold decodeFamily8
  rw [Word.n_toNat]
  simp [isUnmappedWord, hf] at h
  split <;> first | rfl | omega

theorem familyE {w : Word} (h : isUnmappedWord w = true) (hf : w.toNat / 4096 = 14) : decodeFamilyE w = .unmapped w := by
  unfold decodeFamilyE
  rw [Word.kk_toNat]
  simp [isUnmappedWord, hf] at h
  split <;> first | rfl | omega

theorem familyF {w : Word} (h : isUnmappedWord w = true) (hf : w.toNat / 4096 = 15) : decodeFamilyF w = .unmapped w := by
  unfold decodeFamilyF
  rw [Word.kk_toNat]
  simp [isUnmappedWord, hf] at h
  split <;> first | rfl | omega


theorem cls : Statement .cls := fun _ => by decide

theorem ret : Statement .ret := fun _ => by decide

theorem jp (nnn : Addr) : Statement (.jp nnn) := fun _ => by simp [encode, decodeWord]

theorem call (nnn : Addr) : Statement (.call nnn) := fun _ => by simp [encode, decodeWord]

theorem seImm (x : Reg) (kk : Byte) : Statement (.seImm x kk) := fun _ => by simp [encode, decodeWord]

theorem sneImm (x : Reg) (kk : Byte) : Statement (.sneImm x kk) := fun _ => by simp [encode, decodeWord]

theorem seReg (x : Reg) (y : Reg) (low : Nibble) : Statement (.seReg x y low) := fun _ => by simp [encode, decodeWord]

theorem ldImm (x : Reg) (kk : Byte) : Statement (.ldImm x kk) := fun _ => by simp [encode, decodeWord]

theorem addImm (x : Reg) (kk : Byte) : Statement (.addImm x kk) := fun _ => by simp [encode, decodeWord]

theorem ldReg (x : Reg) (y : Reg) : Statement (.ldReg x y) := fun _ => by simp [encode, decodeWord, decodeFamily8]

theorem or (x : Reg) (y : Reg) : Statement (.or x y) := fun _ => by simp [encode, decodeWord, decodeFamily8]

theorem and (x : Reg) (y : Reg) : Statement (.and x y) := fun _ => by simp [encode, decodeWord, decodeFamily8]

theorem xor (x : Reg) (y : Reg) : Statement (.xor x y) := fun _ => by simp [encode, decodeWord, decodeFamily8]

theorem addReg (x : Reg) (y : Reg) : Statement (.addReg x y) := fun _ => by simp [encode, decodeWord, decodeFamily8]

theorem sub (x : Reg) (y : Reg) : Statement (.sub x y) := fun _ => by simp [encode, decodeWord, decodeFamily8]

theorem shr (x : Reg) (y : Reg) : Statement (.shr x y) := fun _ => by simp [encode, decodeWord, decodeFamily8]

theorem subn (x : Reg) (y : Reg) : Statement (.subn x y) := fun _ => by simp [encode, decodeWord, decodeFamily8]

theorem shl (x : Reg) (y : Reg) : Statement (.shl x y) := fun _ => by simp [encode, decodeWord, decodeFamily8]

theorem sneReg (x : Reg) (y : Reg) (low : Nibble) : Statement (.sneReg x y low) := fun _ => by simp [encode, decodeWord]

theorem ldI (nnn : Addr) : Statement (.ldI nnn) := fun _ => by simp [encode, decodeWord]

theorem jpV0 (nnn : Addr) : Statement (.jpV0 nnn) := fun _ => by simp [encode, decodeWord]

theorem rnd (x : Reg) (kk : Byte) : Statement (.rnd x kk) := fun _ => by simp [encode, decodeWord]

theorem drw (x : Reg) (y : Reg) (n : Nibble) : Statement (.drw x y n) := fun _ => by simp [encode, decodeWord]

theorem skp (x : Reg) : Statement (.skp x) := fun _ => by simp [encode, decodeWord, decodeFamilyE]

theorem sknp (x : Reg) : Statement (.sknp x) := fun _ => by simp [encode, decodeWord, decodeFamilyE]

theorem ldVxDt (x : Reg) : Statement (.ldVxDt x) := fun _ => by simp [encode, decodeWord, decodeFamilyF]

theorem ldVxK (x : Reg) : Statement (.ldVxK x) := fun _ => by simp [encode, decodeWord, decodeFamilyF]

theorem ldDtVx (x : Reg) : Statement (.ldDtVx x) := fun _ => by simp [encode, decodeWord, decodeFamilyF]

theorem ldStVx (x : Reg) : Statement (.ldStVx x) := fun _ => by simp [encode, decodeWord, decodeFamilyF]

theorem addIVx (x : Reg) : Statement (.addIVx x) := fun _ => by simp [encode, decodeWord, decodeFamilyF]

theorem ldFVx (x : Reg) : Statement (.ldFVx x) := fun _ => by simp [encode, decodeWord, decodeFamilyF]

theorem ldBVx (x : Reg) : Statement (.ldBVx x) := fun _ => by simp [encode, decodeWord, decodeFamilyF]

theorem ldMemVx (x : Reg) : Statement (.ldMemVx x) := fun _ => by simp [encode, decodeWord, decodeFamilyF]

theorem ldVxMem (x : Reg) : Statement (.ldVxMem x) := fun _ => by simp [encode, decodeWord, decodeFamilyF]

theorem unmapped (w : Word) : Statement (.unmapped w) := by
  intro h
  have h : isUnmappedWord w = true := h
  have hw := w.isLt
  have hfam : w.toNat / 4096 = 0 ∨ w.toNat / 4096 = 8 ∨ w.toNat / 4096 = 14 ∨ w.toNat / 4096 = 15 := by
    by_contra hc
    simp only [not_or] at hc
    obtain ⟨h0, h8, hE, hF⟩ := hc
    simp [isUnmappedWord, h0, h8, hE, hF] at h
  unfold encode decodeWord
  rw [Word.family_toNat]
  rcases hfam with hf | hf | hf | hf <;> simp only [hf]
  · exact family0 h
  · exact family8 h hf
  · exact familyE h hf
  · exact familyF h hf


end Sys2Proof.Laws.RoundTrip
end

