-- ==== Sys2Proof/Laws/Step.lean ====
section
/-! SUPPORT. What a Step can do, said once, and what an execute phase can do to the pieces of state that no instruction
writes; later proofs cite these instead of unfolding step or exec. -/

namespace Sys2Proof.Machine

theorem step_faulted {s : State} (h : s.fault.code ≠ 0) : step s = .next s := by
  rw [step, if_pos (s.faulted_iff.mpr h)]

theorem step_fetchFault {s : State} {c : FaultCode} (h : s.fault.code = 0) (hc : fetchFault s.pc = some c) :
    step s = .next (s.takeFault c 0 (s.pc.setWidth 17)) := by
  rw [step, if_neg (by simp [h])]; simp only [hc]

theorem step_ready {s : State} (h : s.Ready) : step s = finishOutcome s (exec (decodeWord s.fetch) s.advance) := by
  rw [step, if_neg (by simp [h.noFault])]; simp only [h.fetchFault]

/-- A state with no fault recorded is stopped by the fetch check or is ready. -/
theorem fetchFault_or_ready {s : State} (h : s.fault.code = 0) : (∃ c, fetchFault s.pc = some c) ∨ s.Ready := by
  cases hc : fetchFault s.pc with
  | some c => exact .inl ⟨c, rfl⟩
  | none =>
    obtain ⟨h1, h2, h3⟩ := fetchFault_none.mp hc
    exact .inr ⟨h, h1, h2, h3⟩

/-- Everything a Step that answers a next state can have done. -/
theorem step_cases {s t : State} (h : step s = .next t) :
    (s.fault.code ≠ 0 ∧ t = s) ∨
    (s.fault.code = 0 ∧ ∃ c, fetchFault s.pc = some c ∧ t = s.takeFault c 0 (s.pc.setWidth 17)) ∨
    (s.Ready ∧ ∃ u, exec (decodeWord s.fetch) s.advance = .next u ∧ t = s.finish u) := by
  by_cases h0 : s.fault.code = 0
  · rcases fetchFault_or_ready h0 with ⟨c, hc⟩ | hr
    · rw [step_fetchFault h0 hc] at h
      injection h with h
      exact .inr (.inl ⟨h0, c, hc, h.symm⟩)
    · rw [step_ready hr] at h
      refine .inr (.inr ⟨hr, ?_⟩)
      cases hu : exec (decodeWord s.fetch) s.advance with
      | next u => rw [hu] at h; injection h with h; exact ⟨u, rfl, h.symm⟩
      | fault r => rw [hu] at h; cases h
      | refused r => rw [hu] at h; cases h
  · rw [step_faulted h0] at h
    injection h with h
    exact .inl ⟨h0, h.symm⟩

/-- The outcome of a Step from a ready state, by that of exec. -/
theorem step_ready_next {s u : State} (h : s.Ready) (hu : exec (decodeWord s.fetch) s.advance = .next u) :
    step s = .next (s.finish u) := by rw [step_ready h, hu]; rfl

/-- What every execute phase leaves: the pieces of state no instruction writes, and either no new fault or the entry of one of
the five faults an instruction can raise. -/
structure ExecLeaves (s t : State) : Prop where
  key : t.key = s.key
  opcode : t.opcode = s.opcode
  rngSeed : t.rngSeed = s.rngSeed
  rngDraws : t.rngDraws = s.rngDraws
  randArg : t.randArg = s.randArg
  fault : t.fault = s.fault ∨
    ∃ c info, c ≠ .pcOutOfRange ∧ c ≠ .pcMisaligned ∧ t = raised (FaultCode.number c) info s

theorem ExecLeaves.raised {s t : State} {c : FaultCode} {info : Nat} (h1 : c ≠ .pcOutOfRange) (h2 : c ≠ .pcMisaligned)
    (h : t = Machine.raised c.number info s) : ExecLeaves s t := by
  subst h; exact ⟨rfl, rfl, rfl, rfl, rfl, .inr ⟨c, info, h1, h2, rfl⟩⟩

theorem ExecLeaves.of_fields {s t : State} (h1 : t.key = s.key) (h2 : t.opcode = s.opcode) (h3 : t.rngSeed = s.rngSeed)
    (h4 : t.rngDraws = s.rngDraws) (h5 : t.randArg = s.randArg) (h6 : t.fault = s.fault) : ExecLeaves s t :=
  ⟨h1, h2, h3, h4, h5, .inl h6⟩

theorem ExecLeaves.skipIf (s : State) (c : Bool) : ExecLeaves s (s.skipIf c) := by
  cases c <;> exact .of_fields rfl rfl rfl rfl rfl rfl

theorem ExecLeaves.storeBytes {s t : State} {bs : List Byte} (h0 : bs.length ≠ 0) (h : s.storeBytes bs = .next t) :
    ExecLeaves s t := by
  rcases s.storeBytes_cases h0 h with ⟨-, -, rfl⟩ | ⟨-, ht⟩ | ⟨-, ht⟩
  · exact .of_fields rfl rfl rfl rfl rfl rfl
  · exact .raised (c := .reservedWrite) (by decide) (by decide) ht
  · exact .raised (c := .memOutOfRange) (by decide) (by decide) ht

/-- Everything an execute phase leaves that does not depend on the instruction. -/
theorem exec_leaves {i : Instr} {s t : State} (h : exec i s = .next t) : ExecLeaves s t := by
  cases i with
  | ret =>
    simp only [exec, execRet] at h
    split at h
    · injection h with h; exact .raised (c := .stackUnderflow) (by decide) (by decide) h.symm
    · split at h
      next w u hp =>
        injection h with h; subst h
        simp only [State.pop] at hp
        split at hp
        · injection hp with hp; injection hp with _ hu; subst hu
          exact .of_fields rfl rfl rfl rfl rfl rfl
        · cases hp
      · cases h
  | call nnn =>
    simp only [exec, execCall] at h
    split at h
    · injection h with h; exact .raised (c := .stackOverflow) (by decide) (by decide) h.symm
    · split at h
      · injection h with h; subst h; exact .of_fields rfl rfl rfl rfl rfl rfl
      · cases h
  | drw x y n =>
    simp only [exec, execDrw] at h
    rcases State.loadBytes_cases h with ⟨-, rfl⟩ | ⟨-, -, ht⟩
    · exact .of_fields rfl rfl rfl rfl rfl rfl
    · exact .raised (c := .memOutOfRange) (by decide) (by decide) ht
  | ldVxMem x =>
    rcases State.loadBytes_cases h with ⟨-, rfl⟩ | ⟨-, -, ht⟩
    · exact .of_fields (by simp) (by simp) (by simp) (by simp) (by simp) (by simp)
    · exact .raised (c := .memOutOfRange) (by decide) (by decide) ht
  | ldBVx x => exact .storeBytes (by simp [decimalDigits]) h
  | ldMemVx x => exact .storeBytes (by simp) h
  | skp x =>
    simp only [exec, execSkp] at h
    split at h
    · injection h with h; subst h; exact .skipIf _ _
    · injection h with h; exact .raised (c := .keyOutOfRange) (by decide) (by decide) h.symm
  | sknp x =>
    simp only [exec, execSknp] at h
    split at h
    · injection h with h; subst h; exact .skipIf _ _
    · injection h with h; exact .raised (c := .keyOutOfRange) (by decide) (by decide) h.symm
  | ldVxK x =>
    simp only [exec, execLdVxK] at h
    split at h <;> (injection h with h; subst h; exact .of_fields rfl rfl rfl rfl rfl rfl)
  | seImm x kk => injection h with h; subst h; exact .skipIf _ _
  | sneImm x kk => injection h with h; subst h; exact .skipIf _ _
  | seReg x y low => injection h with h; subst h; exact .skipIf _ _
  | sneReg x y low => injection h with h; subst h; exact .skipIf _ _
  | cls | jp | ldImm | addImm | ldReg | or | and | xor | addReg | sub | shr | subn | shl | ldI | jpV0 | rnd | ldVxDt
  | ldDtVx | ldStVx | addIVx | ldFVx | unmapped =>
    injection h with h; subst h; exact .of_fields rfl rfl rfl rfl rfl rfl

/-! ### Memory after an execute phase -/

/-- Memory after a store, byte by byte. -/
theorem read_afterStore (s : State) (base : Nat) (bs : List Byte) (a : Nat) :
    (s.mem.writeBytes base bs).read a = byteAfterStore s base bs a := by
  rw [Memory.read_writeBytes, byteAfterStore]

/-- Memory after an execute phase that leaves no fault recorded: the bytes its instruction stores, and no other change. -/
theorem exec_mem {i : Instr} {s t : State} (h : exec i s = .next t) (h0 : t.fault.code = 0) :
    t.mem = s.mem.writeBytes s.i.toNat (bytesStored i s) := by
  have stored {bs : List Byte} (hb : bs.length ≠ 0) (hs : s.storeBytes bs = .next t) :
      t.mem = s.mem.writeBytes s.i.toNat bs := by
    rcases s.storeBytes_cases hb hs with ⟨-, -, rfl⟩ | ⟨-, rfl⟩ | ⟨-, rfl⟩
    · rfl
    · cases h0
    · cases h0
  cases i with
  | ldBVx x => exact stored (bs := decimalDigits (s.getV x)) (by simp [decimalDigits]) h
  | ldMemVx x => exact stored (bs := s.upTo x) (by simp) h
  | ret =>
    simp only [exec, execRet] at h
    split at h
    · injection h with h; subst h; cases h0
    · split at h
      next w u hp =>
        injection h with h; subst h
        simp only [State.pop] at hp
        split at hp
        · injection hp with hp; injection hp with _ hu; subst hu; rfl
        · cases hp
      · cases h
  | call nnn =>
    simp only [exec, execCall] at h
    split at h
    · injection h with h; subst h; cases h0
    · split at h
      · injection h with h; subst h; rfl
      · cases h
  | drw x y n =>
    simp only [exec, execDrw] at h
    rcases State.loadBytes_cases h with ⟨-, rfl⟩ | ⟨-, -, rfl⟩
    · rfl
    · cases h0
  | ldVxMem x =>
    rcases State.loadBytes_cases h with ⟨-, rfl⟩ | ⟨-, -, rfl⟩
    · simp [bytesStored, Memory.writeBytes]
    · cases h0
  | skp x | sknp x =>
    simp only [exec, execSkp, execSknp] at h
    split at h
    · injection h with h; subst h; rw [State.skipIf_eq]; rfl
    · injection h with h; subst h; cases h0
  | ldVxK x =>
    simp only [exec, execLdVxK] at h
    split at h <;> (injection h with h; subst h; rfl)
  | seImm | sneImm | seReg | sneReg => injection h with h; subst h; rw [State.skipIf_eq]; rfl
  | cls | jp | ldImm | addImm | ldReg | or | and | xor | addReg | sub | shr | subn | shl | ldI | jpV0 | rnd | ldVxDt
  | ldDtVx | ldStVx | addIVx | ldFVx | unmapped => injection h with h; subst h; rfl

end Sys2Proof.Machine
end

