-- ==== Sys2Proof/Tests/Slice0.lean ====
section
/-! SUPPORT. Tests with expected results from spec/95_test_vectors.md and the examples in the rules, and for each statement with
hypotheses a concrete state and operands that meet them. -/

namespace Sys2Proof.Tests

open Sys2Proof.Machine

/-! ### Helpers -/

/-- The next state of an outcome, if it is one. -/
def nextOf : Outcome → Option State
  | .next t => some t
  | .fault _ => none
  | .refused _ => none

/-- The start state of 95_test_vectors.md with the word at 0x200. -/
def start (w : Word) : State := State.reset.withFetchWord 16 w.toNat

/-- The start state with the word where PC is set to. -/
def startAt (pc w : Word) : State := (State.reset.setPc pc).withFetchWord 16 w.toNat

/-- One Step, seen through one reading of the state it leaves. -/
def after {α : Type} (s : State) (see : State → α) : Option α := (nextOf (step s)).map see

/-- One execute phase from a state after the advance. -/
def afterExec {α : Type} (i : Instr) (s : State) (see : State → α) : Option α := (nextOf (exec i s)).map see

/-- A Step or execute phase that is seen through a reading answers a next state with that reading. -/
theorem next_of_seen {α : Type} {o : Outcome} {see : State → α} {b : α} (h : (nextOf o).map see = some b) :
    ∃ t, o = .next t ∧ see t = b := by
  cases o with
  | next t => exact ⟨t, rfl, by simpa [nextOf] using h⟩
  | fault r => simp [nextOf] at h
  | refused r => simp [nextOf] at h

/-- The machine's FONT as a vector. -/
def fontVector : Vector Byte 80 := ⟨fontDefault.toArray, by decide⟩

/-- Key k pressed. -/
def press (s : State) (k : Fin 16) : State := { s with key := s.key.set k true }

/-- A byte in memory. -/
def poke (s : State) (a : Nat) (b : Byte) : State := s.setMem (s.mem.write a b)

/-- A pixel turned on. -/
def light (s : State) (r c : Nat) : State := s.setFb (togglePixel r c (s.fb, false)).1

/-! ### WellFormed: ill-formed terms are refused -/

theorem test_wellFormed_refuses_words_of_instructions :
    Instr.wellFormed (.unmapped 0x00E0) = false ∧ Instr.wellFormed (.unmapped 0x00EE) = false ∧
    Instr.wellFormed (.unmapped 0x1234) = false ∧ Instr.wellFormed (.unmapped 0x512F) = false ∧
    Instr.wellFormed (.unmapped 0x8000) = false ∧ Instr.wellFormed (.unmapped 0x800E) = false ∧
    Instr.wellFormed (.unmapped 0xE09E) = false ∧ Instr.wellFormed (.unmapped 0xE0A1) = false ∧
    Instr.wellFormed (.unmapped 0xF007) = false ∧ Instr.wellFormed (.unmapped 0xF065) = false := by decide

theorem test_wellFormed_takes_unmapped_words :
    Instr.wellFormed (.unmapped 0x0000) = true ∧ Instr.wellFormed (.unmapped 0x0E0E) = true ∧
    Instr.wellFormed (.unmapped 0x80FF) = true ∧ Instr.wellFormed (.unmapped 0x8008) = true ∧
    Instr.wellFormed (.unmapped 0xE0AE) = true ∧ Instr.wellFormed (.unmapped 0xF0FF) = true := by decide

/-! ### Decode: words written bit by bit from the formats of 30_encoding.md R72 and the table of R76 -/

theorem test_decode_display :
    decodeWord 0b0000_0000_1110_0000 = .cls ∧ decodeWord 0b1101_0011_1010_0101 = .drw 3 10 5 := by decide

theorem test_decode_control :
    decodeWord 0b0000_0000_1110_1110 = .ret ∧ decodeWord 0b0001_0010_0011_0100 = .jp 0x234 ∧
    decodeWord 0b0010_1010_1011_1100 = .call 0xABC ∧ decodeWord 0b0011_0011_0100_0010 = .seImm 3 0x42 ∧
    decodeWord 0b0100_1111_0000_0001 = .sneImm 15 1 ∧ decodeWord 0b0101_0001_0010_1111 = .seReg 1 2 15 ∧
    decodeWord 0b1001_0001_0010_0000 = .sneReg 1 2 0 ∧ decodeWord 0b1011_0011_0000_0001 = .jpV0 0x301 := by decide

theorem test_decode_loads :
    decodeWord 0b0110_1010_0100_0010 = .ldImm 10 0x42 ∧ decodeWord 0b0111_1111_0000_0001 = .addImm 15 1 ∧
    decodeWord 0b1000_0001_0010_0000 = .ldReg 1 2 ∧ decodeWord 0b1100_0011_0000_1111 = .rnd 3 0x0F := by decide

theorem test_decode_alu :
    decodeWord 0b1000_0001_0010_0001 = .or 1 2 ∧ decodeWord 0b1000_0001_0010_0010 = .and 1 2 ∧
    decodeWord 0b1000_0001_0010_0011 = .xor 1 2 ∧ decodeWord 0b1000_0001_0010_0100 = .addReg 1 2 ∧
    decodeWord 0b1000_0001_0010_0101 = .sub 1 2 ∧ decodeWord 0b1000_0001_0010_0110 = .shr 1 2 ∧
    decodeWord 0b1000_0001_0010_0111 = .subn 1 2 ∧ decodeWord 0b1000_0001_0010_1110 = .shl 1 2 := by decide

theorem test_decode_index_and_memory :
    decodeWord 0b1010_0001_0010_0011 = .ldI 0x123 ∧ decodeWord 0b1111_0100_0001_1110 = .addIVx 4 ∧
    decodeWord 0b1111_0100_0010_1001 = .ldFVx 4 ∧ decodeWord 0b1111_0100_0011_0011 = .ldBVx 4 ∧
    decodeWord 0b1111_0100_0101_0101 = .ldMemVx 4 ∧ decodeWord 0b1111_0100_0110_0101 = .ldVxMem 4 := by decide

theorem test_decode_keypad_and_timers :
    decodeWord 0b1110_0101_1001_1110 = .skp 5 ∧ decodeWord 0b1110_0101_1010_0001 = .sknp 5 ∧
    decodeWord 0b1111_0101_0000_0111 = .ldVxDt 5 ∧ decodeWord 0b1111_0101_0000_1010 = .ldVxK 5 ∧
    decodeWord 0b1111_0101_0001_0101 = .ldDtVx 5 ∧ decodeWord 0b1111_0101_0001_1000 = .ldStVx 5 := by decide

/-- T2.1 to T2.10. -/
theorem test_decode_unmapped :
    decodeWord 0x0000 = .unmapped 0x0000 ∧ decodeWord 0x01E0 = .unmapped 0x01E0 ∧ decodeWord 0x00E1 = .unmapped 0x00E1 ∧
    decodeWord 0x0E0E = .unmapped 0x0E0E ∧ decodeWord 0x80FF = .unmapped 0x80FF ∧ decodeWord 0x8008 = .unmapped 0x8008 ∧
    decodeWord 0xE09F = .unmapped 0xE09F ∧ decodeWord 0xE0AE = .unmapped 0xE0AE ∧ decodeWord 0xF000 = .unmapped 0xF000 ∧
    decodeWord 0xF0FF = .unmapped 0xF0FF := by decide

/-- The bytes of a word, high byte first (20_memory.md R52), and too few bytes. -/
theorem test_decode_bytes :
    decode [0x12, 0x34, 0xAB] = .ok (.jp 0x234, [0xAB]) ∧ decode [0x12] = .error .needsTwoBytes ∧
    encodeBytes (.jp 0x234) = [0x12, 0x34] ∧ decodeTableWord 16 0xD3A5 = some (.drw 3 10 5) ∧
    decodeTableWord 24 0xD3A5 = none := by decide

/-! ### One Step of each instruction (95_test_vectors.md) -/

/-- T3.1. -/
theorem test_cls : after (light (light (start 0x00E0) 0 0) 31 63) (fun t => (t.fb.pixel 0 0, t.fb.pixel 31 63, t.pc)) =
    some (false, false, 0x202) := by decide

/-- T4.1. -/
theorem test_ret :
    after { start 0x00EE with sp := 1, stack := Vector.replicate 16 0x206 } (fun t => (t.sp, t.pc, t.stack[0])) =
      some (0, 0x206, 0x206) := by decide

/-- T4.2. -/
theorem test_ret_underflow : after (start 0x00EE) (fun t => (t.fault, t.pc)) =
    some (⟨4, 0x200, 0x00EE, 0⟩, 0x200) := by decide

/-- T4.3. -/
theorem test_jp : after (start 0x1ABC) State.pc = some 0xABC := by decide

/-- T4.7. -/
theorem test_call : after { start 0x2FFF with sp := 15 } (fun t => (t.stack[15], t.sp, t.pc)) =
    some (0x202, 16, 0xFFF) := by decide

/-- T4.8. -/
theorem test_call_overflow : after { start 0x2300 with sp := 16 } (fun t => (t.fault, t.sp, t.pc)) =
    some (⟨3, 0x200, 0x2300, 16⟩, 16, 0x200) := by decide

/-- S9.1, S9.2. -/
theorem test_seImm : after ((start 0x3142).setV 1 0x42) State.pc = some 0x204 ∧
    after ((start 0x3142).setV 1 0x41) State.pc = some 0x202 := by decide

/-- S9.3, S9.4. -/
theorem test_sneImm : after ((start 0x4142).setV 1 0x41) State.pc = some 0x204 ∧
    after ((start 0x4142).setV 1 0x42) State.pc = some 0x202 := by decide

/-- S9.6, T2.11. -/
theorem test_seReg : after (((start 0x5120).setV 1 3).setV 2 4) State.pc = some 0x202 ∧
    after (((start 0x512F).setV 1 3).setV 2 3) State.pc = some 0x204 := by decide

/-- S9.8, T2.12. -/
theorem test_sneReg : after (((start 0x9120).setV 1 3).setV 2 3) State.pc = some 0x202 ∧
    after (((start 0x912F).setV 1 3).setV 2 4) State.pc = some 0x204 := by decide

/-- T4.10, T4.12. -/
theorem test_jpV0 : after ((start 0xBFFF).setV 0 0xFF) State.pc = some 0x10FE ∧
    after ((start 0xB123).setV 1 0x10) State.pc = some 0x123 := by decide

/-- T6.1. -/
theorem test_ldImm : after (start 0x6A42) (fun t => (t.getV 10, t.pc)) = some (0x42, 0x202) := by decide

/-- T6.2, T6.3. -/
theorem test_addImm :
    after (((start 0x7A01).setV 10 0xFF).setV 15 9) (fun t => (t.getV 10, t.getV 15)) = some (0, 9) ∧
    after ((start 0x7F01).setV 15 0xFF) (fun t => t.getV 15) = some 0 := by decide

/-- T6.4. -/
theorem test_ldReg : after ((start 0x8010).setV 1 0x42) (fun t => t.getV 0) = some 0x42 := by decide

/-- T6.5. -/
theorem test_or : after ((((start 0x8011).setV 0 0x0F).setV 1 0xF0).setV 15 7) (fun t => (t.getV 0, t.getV 15)) =
    some (0xFF, 7) := by decide

/-- T6.6. -/
theorem test_and : after (((start 0x8012).setV 0 0x3C).setV 1 0x0F) (fun t => t.getV 0) = some 0x0C := by decide

/-- T6.7. -/
theorem test_xor : after (((start 0x8013).setV 0 0xFF).setV 1 0x0F) (fun t => t.getV 0) = some 0xF0 := by decide

/-- S4.1, T6.12. -/
theorem test_addReg :
    after (((start 0x8014).setV 0 250).setV 1 10) (fun t => (t.getV 0, t.getV 15)) = some (4, 1) ∧
    after (((start 0x80F4).setV 0 1).setV 15 1) (fun t => (t.getV 0, t.getV 15)) = some (2, 0) := by decide

/-- T6.10. -/
theorem test_addReg_into_flag : after ((start 0x8FF4).setV 15 0x80) (fun t => t.getV 15) = some 1 := by decide

/-- S5.1, T6.13. -/
theorem test_sub :
    after (((start 0x8015).setV 0 5).setV 1 10) (fun t => (t.getV 0, t.getV 15)) = some (251, 0) ∧
    after (((start 0x8015).setV 0 7).setV 1 7) (fun t => (t.getV 0, t.getV 15)) = some (0, 0) := by decide

/-- T6.15. -/
theorem test_sub_into_flag : after (((start 0x8F15).setV 15 3).setV 1 1) (fun t => t.getV 15) = some 1 := by decide

/-- S6.1, T6.16. -/
theorem test_shr :
    after ((start 0x8016).setV 0 3) (fun t => (t.getV 0, t.getV 15)) = some (1, 1) ∧
    after (((start 0x8016).setV 0 2).setV 1 0xFF) (fun t => (t.getV 0, t.getV 15)) = some (1, 0) := by decide

/-- T6.18, T6.19. -/
theorem test_subn :
    after (((start 0x8017).setV 0 10).setV 1 5) (fun t => (t.getV 0, t.getV 15)) = some (251, 0) ∧
    after (((start 0x8017).setV 0 5).setV 1 10) (fun t => (t.getV 0, t.getV 15)) = some (5, 1) := by decide

/-- S6.2, T6.22. -/
theorem test_shl :
    after ((start 0x801E).setV 0 0x81) (fun t => (t.getV 0, t.getV 15)) = some (2, 1) ∧
    after ((start 0x8FFE).setV 15 0xC0) (fun t => t.getV 15) = some 1 := by decide

/-- T7.1, T7.4. -/
theorem test_rnd :
    after ((start 0xC30F).setRand (some 0xAB)) (fun t => (t.getV 3, t.randArg)) = some (0x0B, none) ∧
    after ((start 0xCF01).setRand (some 0x01)) (fun t => t.getV 15) = some 1 := by decide

/-- T3.3. -/
theorem test_drw_collides :
    after (light (poke ((start 0xD011).setI 0x300) 0x300 0xFF) 0 3)
      (fun t => ((List.range 9).map (t.fb.pixel 0), t.getV 15, t.pc)) =
    some ([true, true, true, false, true, true, true, true, false], 1, 0x202) := by decide

/-- T3.11 and T3.6: the origin is VF's old value, and columns past the edge do not wrap. -/
theorem test_drw_origin_and_clip :
    after (poke (((start 0xDFF1).setI 0x300).setV 15 2) 0x300 0x80) (fun t => (t.fb.pixel 2 2, t.getV 15)) = some (true, 0) ∧
    after (light (poke (((start 0xD011).setI 0x300).setV 0 62) 0x300 0xFF) 0 0)
      (fun t => ([62, 63, 0, 1].map (t.fb.pixel 0), t.getV 15)) = some ([true, true, true, false], 0) := by decide

/-- T3.10. -/
theorem test_drw_faults : after ((start 0xD012).setI 0xFFF) State.fault = some ⟨5, 0x200, 0xD012, 0x1000⟩ := by decide

/-- T8.1. -/
theorem test_ldI : after (start 0xA123) State.i = some 0x123 := by decide

/-- T8.2. -/
theorem test_addIVx : after (((start 0xF01E).setV 0 0x10).setI 0xFFF8) (fun t => (t.i, t.getV 15)) =
    some (0x0008, 0) := by decide

/-- T8.4, T8.6. -/
theorem test_ldFVx : after ((start 0xF029).setV 0 0x0A) State.i = some 0x082 ∧
    after ((start 0xF029).setV 0 0xFF) State.i = some 0x54B := by decide

/-- S11.1. -/
theorem test_ldBVx : after (((start 0xF033).setV 0 255).setI 0x300) (fun t => t.mem.readBytes 0x300 3) =
    some [2, 5, 5] := by decide

/-- T8.8, T8.9: nothing is written. -/
theorem test_ldBVx_faults :
    after (((start 0xF033).setV 0 128).setI 0xFFE) (fun t => (t.fault, t.mem.readBytes 0xFFE 2)) =
      some (⟨5, 0x200, 0xF033, 0x1000⟩, [0, 0]) ∧
    after (((start 0xF033).setV 0 1).setI 0x1FF) (fun t => (t.fault, t.mem.readBytes 0x200 2)) =
      some (⟨6, 0x200, 0xF033, 0x1FF⟩, [0xF0, 0x33]) := by decide

/-- T8.11. -/
theorem test_ldMemVx :
    after (((((start 0xF255).setV 0 1).setV 1 2).setV 2 3).setI 0x400) (fun t => (t.mem.readBytes 0x400 4, t.i)) =
      some ([1, 2, 3, 0], 0x400) := by decide

/-- T8.13. -/
theorem test_ldMemVx_faults : after ((start 0xFF55).setI 0xFF8) State.fault =
    some ⟨5, 0x200, 0xFF55, 0x1000⟩ := by decide

/-- T8.16, T8.18. -/
theorem test_ldVxMem :
    after (poke ((start 0xFF65).setI 0xFF0) 0xFFF 0xAA) (fun t => (t.getV 14, t.getV 15, t.i)) = some (0, 0xAA, 0xFF0) ∧
    after ((start 0xF065).setI 0x050) (fun t => t.getV 0) = some 0xF0 := by decide

/-- T8.17. -/
theorem test_ldVxMem_faults : after ((start 0xFF65).setI 0xFF1) State.fault =
    some ⟨5, 0x200, 0xFF65, 0x1000⟩ := by decide

/-- T9.1, T9.5. -/
theorem test_skp : after (press ((start 0xE39E).setV 3 5) 5) State.pc = some 0x204 ∧
    after ((start 0xE39E).setV 3 16) State.fault = some ⟨7, 0x200, 0xE39E, 16⟩ := by decide

/-- T9.4, T9.6. -/
theorem test_sknp : after ((start 0xE3A1).setV 3 5) State.pc = some 0x204 ∧
    after ((start 0xE3A1).setV 3 0xFF) State.fault = some ⟨7, 0x200, 0xE3A1, 0xFF⟩ := by decide

/-- T9.7. -/
theorem test_ldVxDt : after ((start 0xF507).setDt 9) (fun t => (t.getV 5, t.dt)) = some (9, 8) := by decide

/-- T9.9, T9.11. -/
theorem test_ldVxK :
    after (press (press (start 0xF40A) 7) 3) (fun t => (t.getV 4, t.pc)) = some (3, 0x202) ∧
    after ((start 0xF40A).setDt 2) (fun t => (t.pc, t.dt)) = some (0x200, 1) := by decide

/-- T9.14. -/
theorem test_ldDtVx : after ((((start 0xF215).setV 2 0xFF).setDt 1).setSt 1) (fun t => (t.dt, t.st, t.pc)) =
    some (0xFE, 0, 0x202) := by decide

/-- T9.15, T9.16. -/
theorem test_ldStVx : after ((start 0xF218).setV 2 1) State.st = some 0 ∧
    after ((start 0xF218).setSt 3) State.st = some 0 := by decide

/-- S12.5. -/
theorem test_unmapped : after (((start 0x0123).setDt 3).setSt 1) (fun t => (t.pc, t.dt, t.st)) =
    some (0x202, 2, 0) := by decide

/-! ### The Step, Reset and the host -/

/-- T1.1 to T1.5. -/
theorem test_fetch_check :
    after (startAt 0xFFE 0x1200) State.pc = some 0x200 ∧
    after (State.reset.setPc 0xFFF) State.fault = some ⟨1, 0xFFF, 0, 0xFFF⟩ ∧
    after (State.reset.setPc 0x1000) State.fault = some ⟨1, 0x1000, 0, 0x1000⟩ ∧
    after (State.reset.setPc 0x1FE) State.fault = some ⟨1, 0x1FE, 0, 0x1FE⟩ ∧
    after (State.reset.setPc 0x203) State.fault = some ⟨2, 0x203, 0, 0x203⟩ := by decide

/-- S3.2. -/
theorem test_reset_font : State.reset.mem.readBytes 0x050 5 = [0xF0, 0x90, 0x90, 0x90, 0xF0] ∧
    State.reset.mem.readBytes 0x09B 5 = [0xF0, 0x80, 0xF0, 0x80, 0x80] ∧ State.reset.mem.read 0x04F = 0 ∧
    State.reset.mem.read 0x0A0 = 0 := by decide

/-- S1.1. -/
theorem test_loadRom : ((State.reset.loadRom [0x12, 0x34, 0xAB]).1.mem.readBytes 0x200 4,
    (State.reset.loadRom [0x12, 0x34, 0xAB]).2) = ([0x12, 0x34, 0xAB, 0], .ok) := by decide

/-! ### Witnesses: the hypotheses of the statements can be met, at the bounds of their ranges -/

/-- A state with a program word, one stack entry, a key down, timers running: it meets the invariant. -/
def busy (w : Word) : State :=
  { press (start w) 5 with sp := 1, stack := Vector.replicate 16 0x206, dt := 2, st := 1 }

theorem busy_inv (w : Word) (h : (start w).mem.wf = true) : (busy w).Inv where
  mem := h
  sp := by change (1#8).toNat ≤ 16; decide
  stack j _ := by
    have : (busy w).stack[j] = 0x206 := by fin_cases j <;> rfl
    rw [this]; decide
  pc := by change (0x200#16).toNat ≤ _; decide
  fault := .inl rfl

theorem witness_wellFormed : Instr.wellFormed (.drw 15 0 15) = true ∧ Instr.wellFormed (.unmapped 0xE0AE) = true := by decide

/-- A Step that fetches: its instruction decodes, and its execute phase completes (at the lowest and the highest PC), faults, stops. -/
theorem witness_stepRunsTheDecodedInstruction :
    ((start 0x1234).Ready ∧ decode [(start 0x1234).mem.read 0x200, (start 0x1234).mem.read 0x201] = .ok (.jp 0x234, []) ∧
      ∃ t, exec (.jp 0x234) (start 0x1234).advance = .next t ∧ t.fault.code = 0) ∧
    ((startAt 0xFFE 0x1234).Ready ∧ ∃ t, exec (.jp 0x234) (startAt 0xFFE 0x1234).advance = .next t ∧ t.fault.code = 0) ∧
    ((start 0x00EE).Ready ∧ ∃ t, exec .ret (start 0x00EE).advance = .next t ∧ t.fault.code = 4) ∧
    ({ start 0x00EE with sp := 17 } : State).Ready ∧
      exec .ret { (start 0x00EE).advance with sp := 17 } = .fault (.illegalStackPointer 17) := by
  refine ⟨⟨⟨by decide, by decide, by decide, by decide⟩, by decide, next_of_seen (by decide)⟩,
    ⟨⟨by decide, by decide, by decide, by decide⟩, next_of_seen (by decide)⟩,
    ⟨⟨by decide, by decide, by decide, by decide⟩, next_of_seen (by decide)⟩,
    ⟨by decide, by decide, by decide, by decide⟩, rfl⟩

theorem witness_faultedCoreIsHalted : ({ State.reset with fault := ⟨3, 0x200, 0x2200, 16⟩ } : State).fault.code ≠ 0 := by decide

theorem witness_fetchCheckFaults :
    State.reset.fault.code = 0 ∧ (State.reset.setPc 0x1FF).pc.toNat < 0x200 ∧ 0xFFE < (State.reset.setPc 0xFFF).pc.toNat ∧
    (0x200 ≤ (State.reset.setPc 0x201).pc.toNat ∧ (State.reset.setPc 0x201).pc.toNat % 2 = 1) ∧
    ((State.reset.setPc 0xFFD).pc.toNat ≤ 0xFFE ∧ (State.reset.setPc 0xFFD).pc.toNat % 2 = 1) := by decide

/-- A Step that faults at the fetch, with either code, and one that faults in its execute phase. -/
theorem witness_faultingStepRestoresTheState :
    (∃ t, step (State.reset.setPc 0x1000) = .next t ∧ t.fault.code = 1) ∧
    (∃ t, step (State.reset.setPc 0x203) = .next t ∧ t.fault.code = 2) ∧
    (∃ t, step (start 0x00EE) = .next t ∧ t.fault.code = 4) ∧ (start 0x00EE).fault.code = 0 :=
  ⟨next_of_seen (by decide), next_of_seen (by decide), next_of_seen (by decide), by decide⟩

/-- Of `PcAfterACompletedStep` and `TimersTickAtTheEndOfEveryCompletedStep`, with both timers running. -/
theorem witness_completedStep :
    (busy 0xF215).Ready ∧ ∃ t, step (busy 0xF215) = .next t ∧ t.fault.code = 0 :=
  ⟨⟨by decide, by decide, by decide, by decide⟩, next_of_seen (by decide)⟩

/-- Of `OnlyTheListedInstructionsWrite`: a jump is listed nowhere. -/
theorem witness_onlyTheListedInstructionsWrite :
    (busy 0x1234).Ready ∧ (∃ t, step (busy 0x1234) = .next t ∧ t.pc = 0x234) ∧
    (decodeWord (busy 0x1234).fetch).writesV 15 = false ∧ (decodeWord (busy 0x1234).fetch).writesI = false ∧
    (decodeWord (busy 0x1234).fetch).writesStack = false ∧ (decodeWord (busy 0x1234).fetch).writesFb = false ∧
    (decodeWord (busy 0x1234).fetch).writesMem = false :=
  ⟨⟨by decide, by decide, by decide, by decide⟩, next_of_seen (by decide), by decide⟩

/-- Of `ReservedMemoryIsNeverChanged`: a Step and each operation of the host but Reset, at the bounds of the region. -/
theorem witness_reservedMemoryIsNeverChanged :
    (∃ t, step ((start 0xF055).setI 0x200) = .next t ∧ t.fault.code = 0) ∧ (0 < 0x200 ∧ 0x1FF < 0x200) ∧
    (∃ t, hostApply (.loadRom [1]) State.reset = .next (t, .ok)) ∧ (∀ font seed, HostOp.loadRom [1] ≠ .reset font seed) :=
  ⟨next_of_seen (by decide), by decide, ⟨_, rfl⟩, fun _ _ => nofun⟩

theorem witness_onlyRndDependsOnRand : (decodeWord (start 0x6A42).fetch).readsRand = false := by decide

/-- Of `NoStepDependsOnSt`: a Step that completes, and one that stops. -/
theorem witness_noStepDependsOnSt :
    (∃ t, step (busy 0xF218) = .next t ∧ t.fault.code = 0) ∧
    step { start 0x00EE with sp := 17 } = .fault (.illegalStackPointer 17) :=
  ⟨next_of_seen (by decide), rfl⟩

theorem witness_onlyKeyInstructionsDependOnKey :
    (decodeWord (busy 0x6A42).fetch).readsKey = false ∧ (∃ t, step (busy 0x6A42) = .next t ∧ t.fault.code = 0) ∧
    (decodeWord ({ start 0x00EE with sp := 17 } : State).fetch).readsKey = false ∧
    step { start 0x00EE with sp := 17 } = .fault (.illegalStackPointer 17) :=
  ⟨by decide, next_of_seen (by decide), by decide, rfl⟩

/-- Of `StepKeepsTheInvariant` and `StepAlwaysAnswersUnderTheInvariant`: a return through a stack in use. -/
theorem witness_invariant : (busy 0x00EE).Inv ∧ ∃ t, step (busy 0x00EE) = .next t ∧ t.pc = 0x206 :=
  ⟨busy_inv 0x00EE (by decide), next_of_seen (by decide)⟩

/-- Of `HostOperationsKeepTheInvariant`: each operation, from a state that meets the invariant. -/
theorem witness_hostOperationsKeepTheInvariant :
    (busy 0xC30F).Inv ∧ (∃ t r, hostApply (.step 0xAB) (busy 0xC30F) = .next (t, r)) ∧
    (∃ t r, hostApply (.reset fontVector 0) (busy 0xC30F) = .next (t, r)) ∧
    (∃ t r, hostApply (.loadRom [1]) (busy 0xC30F) = .next (t, r)) ∧
    (∃ t r, hostApply (.setKeys (Vector.replicate 16 true)) (busy 0xC30F) = .next (t, r)) ∧
    ∃ t r, hostApply .read (busy 0xC30F) = .next (t, r) := by
  refine ⟨busy_inv 0xC30F (by decide), ?_, ⟨_, _, rfl⟩, ⟨_, _, rfl⟩, ⟨_, _, rfl⟩, ⟨_, _, rfl⟩⟩
  obtain ⟨t, ht, -⟩ : ∃ t, step ((busy 0xC30F).setRand (some 0xAB)) = .next t ∧ t.pc = 0x202 := next_of_seen (by decide)
  exact ⟨_, _, by rw [hostApply, stepWith, ht]⟩

theorem witness_reachable : Reachable (State.resetWith fontVector 0) := .reset fontVector 0

theorem witness_equalReadsMeanEqualMemories :
    Memory.wf [(0x300, 1)] = true ∧ Memory.wf (Memory.write [] 0x300 1) = true ∧
    ∀ a, Memory.read [(0x300, 1)] a = (Memory.write [] 0x300 1).read a :=
  ⟨by decide, by decide, fun _ => rfl⟩

/-- Of `FetchSeesEarlierStores`: Fx55 over its own word, Fx33 to the end of memory, Fx55 of one byte of a word, an instruction that stores
nothing, and a ROM of the greatest length. -/
theorem witness_fetchSeesEarlierStores :
    ((start 0xFF55).setI 0x200).Ready ∧ (∃ t, step ((start 0xFF55).setI 0x200) = .next t ∧ t.fault.code = 0) ∧
    ((start 0xF033).setI 0xFFD).Ready ∧ (∃ t, step ((start 0xF033).setI 0xFFD) = .next t ∧ t.fault.code = 0) ∧
    ((start 0xF055).setI 0x203).Ready ∧ (∃ t, step ((start 0xF055).setI 0x203) = .next t ∧ t.fault.code = 0) ∧
    (start 0x1234).Ready ∧ (∃ t, step (start 0x1234) = .next t ∧ t.fault.code = 0) ∧
    ∃ t, hostApply (.loadRom (List.replicate 3584 0xFF)) State.reset = .next (t, .ok) := by
  refine ⟨⟨by decide, by decide, by decide, by decide⟩, next_of_seen (by decide),
    ⟨by decide, by decide, by decide, by decide⟩, next_of_seen (by decide),
    ⟨by decide, by decide, by decide, by decide⟩, next_of_seen (by decide),
    ⟨by decide, by decide, by decide, by decide⟩, next_of_seen (by decide),
    State.reset.setMem (State.reset.mem.writeBytes 0x200 (List.replicate 3584 0xFF)), ?_⟩
  rw [hostApply, State.loadRom, if_neg (by rw [List.length_replicate]; decide)]

/-- Of `DrwTogglesTheSpritePixels`: no rows anywhere, the last byte of memory, and both outcomes of the flag. -/
theorem witness_drwTogglesTheSpritePixels :
    ((0 : Nibble) = 0 ∧ (State.reset.setI 0xFF1).i.toNat + (15 : Nibble).toNat ≤ 4096) ∧
    (∃ t, exec (.drw 0 0 1) (light (State.reset.setI 0x050) 0 0) = .next t ∧
      ((light (State.reset.setI 0x050) 0 0).fb.pixel 0 0, t.fb.pixel 0 0, t.getV 15) = (true, false, 1)) ∧
    (∀ r c, State.reset.fb.pixel r c = false) := by
  refine ⟨by decide, next_of_seen (by decide), fun r c => ?_⟩
  by_cases h : c < 64 ∧ r < 32
  · simp [FrameBuffer.pixel, State.reset, h]
  · simp [FrameBuffer.pixel, h]

theorem witness_drwFaultsPastMemory :
    (1 : Nibble) ≠ 0 ∧ 4096 < (State.reset.setI 0x1000).i.toNat + (1 : Nibble).toNat ∧
    4096 < (State.reset.setI 0xFF2).i.toNat + (15 : Nibble).toNat := by decide

/-- Of `RetPopsOrUnderflows`, `CallPushesOrOverflows`, `IllegalStackPointerStops`: SP at the bounds of each clause. -/
theorem witness_stackPointer :
    (1#8).toNat = (0 : Fin 16).val + 1 ∧ (16#8).toNat = (15 : Fin 16).val + 1 ∧ (0#8).toNat = (0 : Fin 16).val ∧
    (15#8).toNat = (15 : Fin 16).val ∧ State.reset.sp = 0 ∧ ({ State.reset with sp := 16 } : State).sp = 16 ∧
    16 < (17#8).toNat ∧ 16 < (255#8).toNat := by decide

theorem witness_retUndoesCall :
    ({ State.reset with sp := 15 } : State).sp.toNat < 16 ∧
    ∃ t, exec (.call 0x300) { State.reset with sp := 15 } = .next t ∧ t.sp = 16 :=
  ⟨by decide, next_of_seen (by decide)⟩

/-- Of the arithmetic with a flag: a destination that is not VF. -/
theorem witness_destinationIsNotTheFlag : (14 : Reg) ≠ 15 ∧ (0 : Reg) ≠ 15 := by decide

theorem witness_rndMasksTheDraw : (0x0B : Byte) &&& ~~~0x0F = 0 ∧ (0xFF : Byte) &&& ~~~0xFF = 0 := by decide

/-- Of `LdBStoresTheDecimalDigits`: I at the bounds of each clause. -/
theorem witness_ldBStoresTheDecimalDigits :
    (0x200 ≤ (0x200#16).toNat ∧ (0x200#16).toNat + 2 < 4096) ∧ (0x200 ≤ (0xFFD#16).toNat ∧ (0xFFD#16).toNat + 2 < 4096) ∧
    (0x1FF#16).toNat < 0x200 ∧ 4096 ≤ (0xFFE#16).toNat + 2 ∧ 4096 ≤ (0xFFFF#16).toNat + 2 := by decide

/-- Of `LdMemStoresTheRegisters` and `LdFromMemLoadsTheRegisters`: I at the bounds of each clause, for V0 and for VF. -/
theorem witness_registersAndMemory :
    (0x200 ≤ (0xFFF#16).toNat ∧ (0xFFF#16).toNat + (0 : Reg).val < 4096) ∧
    (0x200 ≤ (0xFF0#16).toNat ∧ (0xFF0#16).toNat + (15 : Reg).val < 4096) ∧ (0#16).toNat + (15 : Reg).val < 4096 ∧
    (0x1FF#16).toNat < 0x200 ∧ 4096 ≤ (0x1000#16).toNat + (0 : Reg).val ∧ 4096 ≤ (0xFF1#16).toNat + (15 : Reg).val := by decide

/-- Of `KeySkipsTestTheKey`: V[x] at the bounds of each clause. -/
theorem witness_keySkipsTestTheKey :
    (0#8).toNat = (0 : Fin 16).val ∧ (15#8).toNat = (15 : Fin 16).val ∧ 15 < (16#8).toNat ∧ 15 < (255#8).toNat := by decide

/-- Of `KeyWaitTakesTheLeastKeyOrRepeats`: the last key alone, the first with another, none. -/
theorem witness_keyWaitTakesTheLeastKeyOrRepeats :
    ((press State.reset 15).key[(15 : Fin 16)] = true ∧ ∀ j : Fin 16, j < 15 → (press State.reset 15).key[j] = false) ∧
    (press (press State.reset 0) 7).key[(0 : Fin 16)] = true ∧ (∀ j : Fin 16, State.reset.key[j] = false) := by decide

theorem witness_resetLeavesTheResetValues : fontVector.toList = fontDefault := by decide

theorem witness_loadRomCopiesOrRejects :
    (List.replicate 3584 (0xFF : Byte)).length ≤ 3584 ∧ 3584 < (List.replicate 3585 (0xFF : Byte)).length := by
  rw [List.length_replicate, List.length_replicate]; decide

/-- Of `StepReturnsOkOrTheFaultCode`: a Step that completes, and one that faults. -/
theorem witness_stepReturnsOkOrTheFaultCode :
    (∃ t, step { start 0xC30F with randArg := some 0xAB } = .next t ∧ t.fault.code = 0) ∧
    ∃ t, step { start 0x00EE with randArg := some 0xAB } = .next t ∧ t.fault.code = 4 :=
  ⟨next_of_seen (by decide), next_of_seen (by decide)⟩

end Sys2Proof.Tests
end

/-! ### PC after a Step that completes (spec/10_state.md R25) -/

namespace Sys2Proof.Machine

/-! What the instructions with more than one outcome can do, one lemma each. -/

/-- Everything 00EE can do. -/
theorem execRet_cases {s t : State} (h : execRet s = .next t) :
    (s.sp = 0 ∧ t = raised 4 0 s) ∨
    ∃ j : Fin 16, s.sp.toNat = j.val + 1 ∧ t = { s with sp := BitVec.ofNat 8 j.val, pc := s.stack[j] } := by
  unfold execRet at h
  split at h
  next h0 => injection h with h; rw [h0] at h; exact .inl ⟨h0, h.symm⟩
  next h0 =>
    have hpos : s.sp.toNat ≠ 0 := fun e => h0 (BitVec.eq_of_toNat_eq (by simpa using e))
    by_cases hle : s.sp.toNat ≤ 16
    · have hj : s.sp.toNat = s.sp.toNat - 1 + 1 := by omega
      rw [s.pop_eq ⟨s.sp.toNat - 1, by omega⟩ hj] at h
      injection h with h
      exact .inr ⟨⟨s.sp.toNat - 1, by omega⟩, hj, h.symm⟩
    · rw [s.pop_illegal (by omega)] at h
      cases h

/-- Everything 2nnn can do. -/
theorem execCall_cases {nnn : Addr} {s t : State} (h : execCall nnn s = .next t) :
    (s.sp = 16 ∧ t = raised 3 16 s) ∨ (s.sp.toNat < 16 ∧ t = (s.push s.pc).setPc (zextAddr nnn)) := by
  unfold execCall at h
  split at h
  next h16 => injection h with h; rw [h16] at h; exact .inl ⟨h16, h.symm⟩
  next =>
    split at h
    next hlt => injection h with h; exact .inr ⟨hlt, h.symm⟩
    next => cases h

/-- `keyAt` finds the key KEY lists there, for a number below 16 alone. -/
theorem State.keyAt_eq_some {s : State} {k : Byte} {pressed : Bool} (h : s.keyAt k = some pressed) :
    k.toNat < 16 ∧ s.key.toList.getD k.toNat false = pressed := by
  obtain ⟨hk, hget⟩ := Vector.getElem?_eq_some_iff.mp h
  exact ⟨hk, by simpa [List.getD_eq_getElem?_getD, hk] using hget⟩

theorem State.keyAt_eq_none {s : State} {k : Byte} (h : s.keyAt k = none) : 16 ≤ k.toNat :=
  Vector.getElem?_eq_none_iff.mp h

/-- Everything Ex9E can do. -/
theorem execSkp_cases {x : Reg} {s t : State} (h : execSkp x s = .next t) :
    (16 ≤ (s.getV x).toNat ∧ t = raised 7 (s.getV x).toNat s) ∨
    ((s.getV x).toNat < 16 ∧ t = s.skipIf (s.key.toList.getD (s.getV x).toNat false)) := by
  unfold execSkp at h
  split at h
  next hk =>
    obtain ⟨hlt, rfl⟩ := State.keyAt_eq_some hk
    injection h with h; exact .inr ⟨hlt, h.symm⟩
  next hk => injection h with h; exact .inl ⟨State.keyAt_eq_none hk, h.symm⟩

/-- Everything ExA1 can do. -/
theorem execSknp_cases {x : Reg} {s t : State} (h : execSknp x s = .next t) :
    (16 ≤ (s.getV x).toNat ∧ t = raised 7 (s.getV x).toNat s) ∨
    ((s.getV x).toNat < 16 ∧ t = s.skipIf (!s.key.toList.getD (s.getV x).toNat false)) := by
  unfold execSknp at h
  split at h
  next hk =>
    obtain ⟨hlt, rfl⟩ := State.keyAt_eq_some hk
    injection h with h; exact .inr ⟨hlt, h.symm⟩
  next hk => injection h with h; exact .inl ⟨State.keyAt_eq_none hk, h.symm⟩

/-- There is a least pressed key exactly when some key is pressed. -/
theorem State.lowestKey_isSome (s : State) : s.lowestKey.isSome = s.key.toList.any id := by
  rw [Bool.eq_iff_iff, State.lowestKey, List.find?_isSome, List.any_eq_true]
  constructor
  · rintro ⟨k, -, hk⟩
    exact ⟨s.key[k], by simp, hk⟩
  · rintro ⟨b, hb, hpressed⟩
    obtain ⟨k, hk, rfl⟩ := List.mem_iff_getElem.mp hb
    exact ⟨⟨k, by simpa using hk⟩, List.mem_finRange _, by simpa using hpressed⟩

/-! PC as a number: no sum of R25's table reaches the modulus (R26). -/

theorem zextAddr_toNat (nnn : Addr) : (zextAddr nnn).toNat = nnn.toNat :=
  BitVec.toNat_setWidth_of_le (by decide)

theorem zextByte_toNat (b : Byte) : (zextByte b).toNat = b.toNat :=
  BitVec.toNat_setWidth_of_le (by decide)

theorem zextByte_add_zextAddr_toNat (b : Byte) (nnn : Addr) :
    (zextByte b + zextAddr nnn).toNat = b.toNat + nnn.toNat := by
  have := b.isLt; have := nnn.isLt
  rw [BitVec.toNat_add, zextByte_toNat, zextAddr_toNat]; omega

theorem State.Ready.advance_pc_toNat {s : State} (h : s.Ready) : s.advance.pc.toNat = s.pc.toNat + 2 := by
  have := h.high
  rw [State.advance_pc, BitVec.toNat_add]; simp; omega

theorem State.Ready.skipIf_advance_pc_toNat {s : State} (h : s.Ready) (c : Bool) :
    (s.advance.skipIf c).pc.toNat = if c then s.pc.toNat + 4 else s.pc.toNat + 2 := by
  have := h.high
  cases c with
  | false => exact h.advance_pc_toNat
  | true =>
    rw [State.skipIf, if_pos rfl, State.skip_pc, BitVec.toNat_add, h.advance_pc_toNat]; simp; omega

/-- PC after an execute phase that leaves no fault recorded, from the state after the advance. -/
theorem exec_advance_pc {i : Instr} {s t : State} (hs : s.Ready) (h : exec i s.advance = .next t)
    (h0 : t.fault.code = 0) : t.pc.toNat = pcAfter i s := by
  cases i with
  | ret =>
    rcases execRet_cases h with ⟨-, rfl⟩ | ⟨j, hj, rfl⟩
    · cases h0
    · have hentry : s.sp.toNat - 1 = j.val := by rw [State.advance_sp] at hj; omega
      simp [pcAfter, hentry, List.getD_eq_getElem?_getD]
  | call nnn =>
    rcases execCall_cases h with ⟨-, rfl⟩ | ⟨-, rfl⟩
    · cases h0
    · exact zextAddr_toNat nnn
  | jp nnn => injection h with h; subst h; exact zextAddr_toNat nnn
  | jpV0 nnn => injection h with h; subst h; exact zextByte_add_zextAddr_toNat _ nnn
  | skp x =>
    rcases execSkp_cases h with ⟨-, rfl⟩ | ⟨-, rfl⟩
    · cases h0
    · exact hs.skipIf_advance_pc_toNat _
  | sknp x =>
    rcases execSknp_cases h with ⟨-, rfl⟩ | ⟨-, rfl⟩
    · cases h0
    · exact hs.skipIf_advance_pc_toNat _
  | seImm | sneImm | seReg | sneReg => injection h with h; subst h; exact hs.skipIf_advance_pc_toNat _
  | ldVxK x =>
    have hkey : s.advance.lowestKey.isSome = s.key.toList.any id := s.advance.lowestKey_isSome
    simp only [exec, execLdVxK] at h
    split at h
    next k hk =>
      injection h with h; subst h
      rw [hk] at hkey
      simpa [pcAfter, ← hkey] using hs.advance_pc_toNat
    next hk =>
      injection h with h; subst h
      rw [hk] at hkey
      simp [pcAfter, ← hkey]
  | drw x y n =>
    simp only [exec, execDrw] at h
    rcases State.loadBytes_cases h with ⟨-, rfl⟩ | ⟨-, -, rfl⟩
    · exact hs.advance_pc_toNat
    · cases h0
  | ldVxMem x =>
    rcases State.loadBytes_cases h with ⟨-, rfl⟩ | ⟨-, -, rfl⟩
    · rw [State.loadV_pc]; exact hs.advance_pc_toNat
    · cases h0
  | ldBVx x | ldMemVx x =>
    rcases State.storeBytes_cases (by simp [decimalDigits]) h with ⟨-, -, rfl⟩ | ⟨-, rfl⟩ | ⟨-, rfl⟩
    · exact hs.advance_pc_toNat
    · cases h0
    · cases h0
  | cls | ldImm | addImm | ldReg | or | and | xor | addReg | sub | shr | subn | shl | ldI | rnd | ldVxDt | ldDtVx
  | ldStVx | addIVx | ldFVx | unmapped => injection h with h; subst h; exact hs.advance_pc_toNat

/-- A completed Step of a ready state is a completed execute phase, then the tick and the draw. -/
theorem step_completed {s t : State} (hs : s.Ready) (h : step s = .next t) (h0 : t.fault.code = 0) :
    ∃ u, exec (decodeWord s.fetch) s.advance = .next u ∧ u.fault.code = 0 ∧ t = u.tick.spendDraw := by
  rcases step_cases h with ⟨hf, -⟩ | ⟨-, c, hc, -⟩ | ⟨-, u, hu, rfl⟩
  · exact absurd hs.noFault hf
  · rw [hs.fetchFault] at hc; cases hc
  · by_cases hu0 : u.fault.code = 0
    · exact ⟨u, hu, hu0, State.finish_ok hu0⟩
    · rw [State.finish_faulted hu0] at h0; exact absurd h0 hu0

/-- Settles O11: the tick and the draw leave the PC of the execute phase, which R25's table gives instruction by instruction. -/
theorem pcAfterACompletedStep : Obligations.PcAfterACompletedStep := by
  intro s t hs h h0
  obtain ⟨u, hu, hu0, rfl⟩ := step_completed hs h h0
  rw [State.spendDraw_pc, State.tick_pc]
  exact exec_advance_pc hs hu hu0

end Sys2Proof.Machine

/-! ### The timers after a Step that completes (spec/40_cycle.md R108) -/

namespace Sys2Proof.Machine

@[simp] theorem State.skipIf_dt (s : State) (c : Bool) : (s.skipIf c).dt = s.dt := by rw [State.skipIf_eq]

@[simp] theorem State.skipIf_st (s : State) (c : Bool) : (s.skipIf c).st = s.st := by rw [State.skipIf_eq]

/-- Both timers after an execute phase, a faulting one included: only Fx15 and Fx18 write one (R30, R31). -/
theorem exec_advance_timers {i : Instr} {s t : State} (h : exec i s.advance = .next t) :
    t.dt = dtBeforeTick i s ∧ t.st = stBeforeTick i s := by
  cases i with
  | ret => rcases execRet_cases h with ⟨-, rfl⟩ | ⟨_, -, rfl⟩ <;> exact ⟨rfl, rfl⟩
  | call => rcases execCall_cases h with ⟨-, rfl⟩ | ⟨-, rfl⟩ <;> exact ⟨rfl, rfl⟩
  | skp =>
    rcases execSkp_cases h with ⟨-, rfl⟩ | ⟨-, rfl⟩
    · exact ⟨rfl, rfl⟩
    · exact ⟨State.skipIf_dt _ _, State.skipIf_st _ _⟩
  | sknp =>
    rcases execSknp_cases h with ⟨-, rfl⟩ | ⟨-, rfl⟩
    · exact ⟨rfl, rfl⟩
    · exact ⟨State.skipIf_dt _ _, State.skipIf_st _ _⟩
  | seImm | sneImm | seReg | sneReg =>
    injection h with h; subst h; exact ⟨State.skipIf_dt _ _, State.skipIf_st _ _⟩
  | ldVxK =>
    simp only [exec, execLdVxK] at h
    split at h <;> (injection h with h; subst h; exact ⟨rfl, rfl⟩)
  | drw =>
    simp only [exec, execDrw] at h
    rcases State.loadBytes_cases h with ⟨-, rfl⟩ | ⟨-, -, rfl⟩ <;> exact ⟨rfl, rfl⟩
  | ldVxMem =>
    rcases State.loadBytes_cases h with ⟨-, rfl⟩ | ⟨-, -, rfl⟩
    · exact ⟨State.loadV_dt _ _, State.loadV_st _ _⟩
    · exact ⟨rfl, rfl⟩
  | ldBVx | ldMemVx =>
    rcases State.storeBytes_cases (by simp [decimalDigits]) h with ⟨-, -, rfl⟩ | ⟨-, rfl⟩ | ⟨-, rfl⟩ <;>
      exact ⟨rfl, rfl⟩
  | cls | jp | jpV0 | ldImm | addImm | ldReg | or | and | xor | addReg | sub | shr | subn | shl | ldI | rnd | ldVxDt
  | ldDtVx | ldStVx | addIVx | ldFVx | unmapped => injection h with h; subst h; exact ⟨rfl, rfl⟩

/-- Settles O12: the tick takes one from the timers the execute phase left, those that Fx15 or Fx18 wrote included. -/
theorem timersTickAtTheEndOfEveryCompletedStep : Obligations.TimersTickAtTheEndOfEveryCompletedStep := by
  intro s t hs h h0
  obtain ⟨u, hu, -, rfl⟩ := step_completed hs h h0
  obtain ⟨hdt, hst⟩ := exec_advance_timers hu
  rw [← hdt, ← hst]
  exact ⟨tickTimer_toNat u.dt, tickTimer_toNat u.st⟩

end Sys2Proof.Machine

/-! ### The cleared frame buffer (spec/41_display.md R120) -/

namespace Sys2Proof.Machine

/-- CLS answers at every state, with the blank frame buffer in place of the old one. -/
theorem exec_cls (s : State) : exec .cls s = .next (s.setFb FrameBuffer.blank) := rfl

/-- Settles O24: the blank frame buffer has no pixel on, and `setFb` writes no other field. -/
theorem clsClearsTheFrameBuffer : Obligations.ClsClearsTheFrameBuffer := by
  refine ⟨by decide, fun s => ⟨s.setFb FrameBuffer.blank, exec_cls s, fun r c => ?pixelsOff, ?frame⟩⟩
  case pixelsOff => rw [State.setFb_fb, FrameBuffer.pixel_blank]
  case frame => rw [State.setFb_fb, State.setFb]

end Sys2Proof.Machine

/-! ### The skips against an immediate (spec/42_control.md R133, R134, R138) -/

namespace Sys2Proof.Machine

theorem decodeWord_wordXK_3 (x : Reg) (kk : Byte) : decodeWord (wordXK 3 x kk) = .seImm x kk := by
  rw [wordXK_eq (by decide)]
  exact Laws.RoundTrip.seImm x kk rfl

theorem decodeWord_wordXK_4 (x : Reg) (kk : Byte) : decodeWord (wordXK 4 x kk) = .sneImm x kk := by
  rw [wordXK_eq (by decide)]
  exact Laws.RoundTrip.sneImm x kk rfl

theorem exec_seImm (x : Reg) (kk : Byte) (s : State) : exec (.seImm x kk) s = .next (s.skipIf (s.getV x == kk)) := rfl

theorem exec_sneImm (x : Reg) (kk : Byte) (s : State) : exec (.sneImm x kk) s = .next (s.skipIf (s.getV x != kk)) := rfl

/-- A skip on equality writes PC alone, and moves it exactly when the two bytes are equal. -/
theorem State.skipIf_beq (s : State) (a b : Byte) :
    s.skipIf (a == b) = { s with pc := if a = b then s.pc + 2 else s.pc } := by
  rw [State.skipIf_eq]
  simp only [beq_iff_eq]

/-- A skip on difference writes PC alone, and moves it exactly when the two bytes differ. -/
theorem State.skipIf_bne (s : State) (a b : Byte) :
    s.skipIf (a != b) = { s with pc := if a = b then s.pc else s.pc + 2 } := by
  rw [State.skipIf_eq]
  simp only [bne_iff_ne, ite_not]

/-- Settles O32: 3xkk decodes by the round trip, and its meaning is a skip on equality. -/
theorem seImmSkipsWhenEqual : Obligations.SeImmSkipsWhenEqual := by
  refine fun x kk => ⟨decodeWord_wordXK_3 x kk, fun s => ?_⟩
  rw [exec_seImm, State.skipIf_beq]

/-- Settles O33: 4xkk decodes by the round trip, and its meaning is a skip on difference. -/
theorem sneImmSkipsWhenDifferent : Obligations.SneImmSkipsWhenDifferent := by
  refine fun x kk => ⟨decodeWord_wordXK_4 x kk, fun s => ?_⟩
  rw [exec_sneImm, State.skipIf_bne]

end Sys2Proof.Machine

/-! ### Loads and arithmetic without a flag (spec/43_alu.md R150 to R155) -/

namespace Sys2Proof.Machine

theorem decodeWord_wordXK_6 (x : Reg) (kk : Byte) : decodeWord (wordXK 6 x kk) = .ldImm x kk := by
  rw [wordXK_eq (by decide)]
  exact Laws.RoundTrip.ldImm x kk rfl

theorem decodeWord_wordXK_7 (x : Reg) (kk : Byte) : decodeWord (wordXK 7 x kk) = .addImm x kk := by
  rw [wordXK_eq (by decide)]
  exact Laws.RoundTrip.addImm x kk rfl

theorem decodeWord_wordXYN_8_0 (x y : Reg) : decodeWord (wordXYN 8 x y 0) = .ldReg x y := by
  rw [wordXYN_eq (by decide)]
  exact Laws.RoundTrip.ldReg x y rfl

theorem decodeWord_wordXYN_8_1 (x y : Reg) : decodeWord (wordXYN 8 x y 1) = .or x y := by
  rw [wordXYN_eq (by decide)]
  exact Laws.RoundTrip.or x y rfl

theorem decodeWord_wordXYN_8_2 (x y : Reg) : decodeWord (wordXYN 8 x y 2) = .and x y := by
  rw [wordXYN_eq (by decide)]
  exact Laws.RoundTrip.and x y rfl

theorem decodeWord_wordXYN_8_3 (x y : Reg) : decodeWord (wordXYN 8 x y 3) = .xor x y := by
  rw [wordXYN_eq (by decide)]
  exact Laws.RoundTrip.xor x y rfl

/-! Each of the six is one register write, with the byte it writes. -/

theorem exec_ldImm (x : Reg) (kk : Byte) (s : State) : exec (.ldImm x kk) s = .next (s.setV x kk) := rfl

theorem exec_addImm (x : Reg) (kk : Byte) (s : State) :
    exec (.addImm x kk) s = .next (s.setV x (s.getV x + kk)) := rfl

theorem exec_ldReg (x y : Reg) (s : State) : exec (.ldReg x y) s = .next (s.setV x (s.getV y)) := rfl

theorem exec_or (x y : Reg) (s : State) : exec (.or x y) s = .next (s.setV x (s.getV x ||| s.getV y)) := rfl

theorem exec_and (x y : Reg) (s : State) : exec (.and x y) s = .next (s.setV x (s.getV x &&& s.getV y)) := rfl

theorem exec_xor (x y : Reg) (s : State) : exec (.xor x y) s = .next (s.setV x (s.getV x ^^^ s.getV y)) := rfl

theorem State.getV_setV_self (s : State) (x : Reg) (b : Byte) : (s.setV x b).getV x = b := by
  rw [State.getV_setV, if_pos rfl]

/-- Settles O35: 6xkk decodes by the round trip, and its meaning is the one write of kk to V[x]. -/
theorem ldImmLoadsTheImmediate : Obligations.LdImmLoadsTheImmediate := fun x kk =>
  ⟨decodeWord_wordXK_6 x kk, fun s =>
    ⟨s.setV x kk, exec_ldImm x kk s, s.getV_setV_self x kk, OnlyV_setV s x kk⟩⟩

/-- Settles O36: 7xkk decodes by the round trip, and the byte it writes is a sum of two bytes, which wraps at 256. -/
theorem addImmWrapsAndWritesNoFlag : Obligations.AddImmWrapsAndWritesNoFlag := by
  refine fun x kk => ⟨decodeWord_wordXK_7 x kk, fun s =>
    ⟨s.setV x (s.getV x + kk), exec_addImm x kk s, ?sum, OnlyV_setV s x _⟩⟩
  case sum => rw [State.getV_setV_self, BitVec.toNat_add]

/-- Settles O37: 8xy0 decodes by the round trip, and its meaning is the one write of V[y] to V[x]. -/
theorem ldRegCopies : Obligations.LdRegCopies := fun x y =>
  ⟨decodeWord_wordXYN_8_0 x y, fun s =>
    ⟨s.setV x (s.getV y), exec_ldReg x y s, s.getV_setV_self x _, OnlyV_setV s x _⟩⟩

/-- Settles O38: each of the three words decodes by the round trip, and is one write of V[x], a byte read bit by bit. -/
theorem logicIsBitwiseAndWritesNoFlag : Obligations.LogicIsBitwiseAndWritesNoFlag := by
  refine fun x y => ⟨decodeWord_wordXYN_8_1 x y, decodeWord_wordXYN_8_2 x y, decodeWord_wordXYN_8_3 x y, fun s =>
    ⟨⟨_, exec_or x y s, OnlyV_setV s x _, fun b => ?orBit⟩, ⟨_, exec_and x y s, OnlyV_setV s x _, fun b => ?andBit⟩,
      ⟨_, exec_xor x y s, OnlyV_setV s x _, fun b => ?xorBit⟩⟩⟩
  case orBit => rw [State.getV_setV_self, BitVec.getLsbD_or]
  case andBit => rw [State.getV_setV_self, BitVec.getLsbD_and]
  case xorBit => rw [State.getV_setV_self, BitVec.getLsbD_xor]

end Sys2Proof.Machine

/-! ### The round trip of instructions and words (spec/30_encoding.md R70 to R77) -/

namespace Sys2Proof.Machine

/-- The decoder undoes the encoder on every well-formed instruction. -/
theorem decodeWord_encode {i : Instr} (h : i.wellFormed = true) : decodeWord (encode i) = i := by
  cases i with
  | cls => exact Laws.RoundTrip.cls h
  | ret => exact Laws.RoundTrip.ret h
  | jp nnn => exact Laws.RoundTrip.jp nnn h
  | call nnn => exact Laws.RoundTrip.call nnn h
  | seImm x kk => exact Laws.RoundTrip.seImm x kk h
  | sneImm x kk => exact Laws.RoundTrip.sneImm x kk h
  | seReg x y low => exact Laws.RoundTrip.seReg x y low h
  | ldImm x kk => exact Laws.RoundTrip.ldImm x kk h
  | addImm x kk => exact Laws.RoundTrip.addImm x kk h
  | ldReg x y => exact Laws.RoundTrip.ldReg x y h
  | or x y => exact Laws.RoundTrip.or x y h
  | and x y => exact Laws.RoundTrip.and x y h
  | xor x y => exact Laws.RoundTrip.xor x y h
  | addReg x y => exact Laws.RoundTrip.addReg x y h
  | sub x y => exact Laws.RoundTrip.sub x y h
  | shr x y => exact Laws.RoundTrip.shr x y h
  | subn x y => exact Laws.RoundTrip.subn x y h
  | shl x y => exact Laws.RoundTrip.shl x y h
  | sneReg x y low => exact Laws.RoundTrip.sneReg x y low h
  | ldI nnn => exact Laws.RoundTrip.ldI nnn h
  | jpV0 nnn => exact Laws.RoundTrip.jpV0 nnn h
  | rnd x kk => exact Laws.RoundTrip.rnd x kk h
  | drw x y n => exact Laws.RoundTrip.drw x y n h
  | skp x => exact Laws.RoundTrip.skp x h
  | sknp x => exact Laws.RoundTrip.sknp x h
  | ldVxDt x => exact Laws.RoundTrip.ldVxDt x h
  | ldVxK x => exact Laws.RoundTrip.ldVxK x h
  | ldDtVx x => exact Laws.RoundTrip.ldDtVx x h
  | ldStVx x => exact Laws.RoundTrip.ldStVx x h
  | addIVx x => exact Laws.RoundTrip.addIVx x h
  | ldFVx x => exact Laws.RoundTrip.ldFVx x h
  | ldBVx x => exact Laws.RoundTrip.ldBVx x h
  | ldMemVx x => exact Laws.RoundTrip.ldMemVx x h
  | ldVxMem x => exact Laws.RoundTrip.ldVxMem x h
  | unmapped w => exact Laws.RoundTrip.unmapped w h

/-- Settles O1: the decoder reads the encoded word, and the round trip of words does the rest. -/
theorem decodeOfEncodeIsTheInstruction : Obligations.DecodeOfEncodeIsTheInstruction := by
  intro i rest h
  rw [encodeBytes, decode_wordBytes, decodeWord_encode h]

/-! A word is its fields put together again, format by format (R72). -/

theorem encodeA_fields {w : Word} {f : Nibble} (hf : w.family = f) : encodeA f w.nnn = w := by
  subst hf
  apply BitVec.eq_of_toNat_eq
  rw [encodeA_toNat, Word.family_toNat, Word.nnn_toNat]; omega

theorem encodeXK_fields {w : Word} {f : Nibble} {kk : Byte} (hf : w.family = f) (hk : w.kk = kk) :
    encodeXK f w.x kk = w := by
  subst hf hk
  apply BitVec.eq_of_toNat_eq
  rw [encodeXK_toNat, Word.family_toNat, Word.x_val, Word.kk_toNat]; omega

theorem encodeXYN_fields {w : Word} {f n : Nibble} (hf : w.family = f) (hn : w.n = n) :
    encodeXYN f w.x w.y n = w := by
  subst hf hn
  apply BitVec.eq_of_toNat_eq
  rw [encodeXYN_toNat, Word.family_toNat, Word.x_val, Word.y_val, Word.n_toNat]; omega

/-- The instruction stands for the word and for no other. -/
def StandsFor (i : Instr) (w : Word) : Prop := i.wellFormed = true ∧ encode i = w

/-- A field is the literal of its number. -/
theorem eq_ofNat_of_toNat_eq {n : Nat} {b : BitVec n} {k : Nat} (h : b.toNat = k) : b = BitVec.ofNat n k := by
  rw [← h, BitVec.ofNat_toNat, BitVec.setWidth_eq]

theorem decodeFamily0_standsFor {w : Word} (hf : w.family = 0x0) : StandsFor (decodeFamily0 w) w := by
  unfold decodeFamily0
  split
  next h => exact ⟨rfl, h.symm⟩
  next h0 =>
    split
    next h => exact ⟨rfl, h.symm⟩
    next h1 =>
      have hfam : w.toNat / 4096 = 0 := by rw [← Word.family_toNat, hf]; rfl
      have hcls : w.toNat ≠ 0x00E0 := fun e => h0 (BitVec.eq_of_toNat_eq e)
      have hret : w.toNat ≠ 0x00EE := fun e => h1 (BitVec.eq_of_toNat_eq e)
      exact ⟨by simp [Instr.wellFormed, isUnmappedWord, hfam, hcls, hret], rfl⟩

theorem decodeFamily8_standsFor {w : Word} (hf : w.family = 0x8) : StandsFor (decodeFamily8 w) w := by
  unfold decodeFamily8
  split
  case h_10 =>
    have hfam : w.toNat / 4096 = 8 := by rw [← Word.family_toNat, hf]; rfl
    simp only [Word.n_toNat, imp_false] at *
    refine ⟨?_, rfl⟩
    simp [Instr.wellFormed, isUnmappedWord, hfam]
    omega
  all_goals
    next hn => exact ⟨rfl, encodeXYN_fields hf (eq_ofNat_of_toNat_eq hn)⟩

theorem decodeFamilyE_standsFor {w : Word} (hf : w.family = 0xE) : StandsFor (decodeFamilyE w) w := by
  unfold decodeFamilyE
  split
  case h_3 h9E hA1 =>
    have hfam : w.toNat / 4096 = 14 := by rw [← Word.family_toNat, hf]; rfl
    simp only [Word.kk_toNat, imp_false] at h9E hA1
    exact ⟨by simp [Instr.wellFormed, isUnmappedWord, hfam, h9E, hA1], rfl⟩
  all_goals
    next hk => exact ⟨rfl, encodeXK_fields hf (eq_ofNat_of_toNat_eq hk)⟩

theorem decodeFamilyF_standsFor {w : Word} (hf : w.family = 0xF) : StandsFor (decodeFamilyF w) w := by
  unfold decodeFamilyF
  split
  case h_10 =>
    have hfam : w.toNat / 4096 = 15 := by rw [← Word.family_toNat, hf]; rfl
    simp only [Word.kk_toNat, imp_false] at *
    refine ⟨?_, rfl⟩
    simp [Instr.wellFormed, isUnmappedWord, hfam]
    omega
  all_goals
    next hk => exact ⟨rfl, encodeXK_fields hf (eq_ofNat_of_toNat_eq hk)⟩

/-- The decoder loses nothing: its instruction is well formed and encodes to the word. -/
theorem decodeWord_standsFor (w : Word) : StandsFor (decodeWord w) w := by
  unfold decodeWord
  split
  case h_1 hf => exact decodeFamily0_standsFor (eq_ofNat_of_toNat_eq hf)
  case h_9 hf => exact decodeFamily8_standsFor (eq_ofNat_of_toNat_eq hf)
  case h_15 hf => exact decodeFamilyE_standsFor (eq_ofNat_of_toNat_eq hf)
  case h_16 =>
    have hlt := w.family.isLt
    simp only [imp_false] at *
    exact decodeFamilyF_standsFor (eq_ofNat_of_toNat_eq (k := 15) (by omega))
  case h_2 hf | h_3 hf | h_11 hf | h_12 hf => exact ⟨rfl, encodeA_fields (eq_ofNat_of_toNat_eq hf)⟩
  case h_4 hf | h_5 hf | h_7 hf | h_8 hf | h_13 hf => exact ⟨rfl, encodeXK_fields (eq_ofNat_of_toNat_eq hf) rfl⟩
  case h_6 hf | h_10 hf | h_14 hf => exact ⟨rfl, encodeXYN_fields (eq_ofNat_of_toNat_eq hf) rfl⟩

/-- Settles O2, family by family. -/
theorem encodeOfDecodeIsTheWord : Obligations.EncodeOfDecodeIsTheWord := decodeWord_standsFor

/-- A word that decodes as unmapped is carried whole. -/
theorem eq_of_decodeWord_eq_unmapped {w u : Word} (h : decodeWord w = .unmapped u) : u = w := by
  obtain ⟨-, hw⟩ := decodeWord_standsFor w
  rw [h] at hw
  exact hw

theorem decodeWord_eq_unmapped_iff (w : Word) : decodeWord w = .unmapped w ↔ isUnmappedWord w = true := by
  constructor
  · intro h
    obtain ⟨hwf, -⟩ := decodeWord_standsFor w
    rw [h] at hwf
    exact hwf
  · exact Laws.RoundTrip.unmapped w

theorem exec_unmapped (w : Word) (s : State) : exec (.unmapped w) s = .next s := rfl

/-- Settles O4: both directions of R77's table, by the two round trips. -/
theorem unmappedWordsAreTheTabledOnes : Obligations.UnmappedWordsAreTheTabledOnes := fun w =>
  ⟨decodeWord_eq_unmapped_iff w, fun _ => eq_of_decodeWord_eq_unmapped, exec_unmapped w⟩

end Sys2Proof.Machine

/-! ### The decoder and the opcode table (spec/30_encoding.md R74 to R80) -/

namespace Sys2Proof.Machine

/-! What each mask of the table keeps of a word. -/

theorem and_familyMask (w : Word) : w &&& 0xF000#16 = encodeA w.family 0 := by
  have hf : w.family &&& 0xF#4 = w.family := BitVec.and_allOnes
  have hn : w.nnn &&& 0x000#12 = 0#12 := BitVec.and_zero
  conv_lhs => rw [← encodeA_fields (w := w) rfl, show 0xF000#16 = 0xF#4 ++ 0x000#12 from rfl]
  rw [encodeA, BitVec.and_append, hf, hn, encodeA]
  rfl

theorem and_lowNibbleMask (w : Word) : w &&& 0xF00F#16 = encodeXYN w.family 0 0 w.n := by
  have hf : w.family &&& 0xF#4 = w.family := BitVec.and_allOnes
  have hn : w.n &&& 0xF#4 = w.n := BitVec.and_allOnes
  conv_lhs =>
    rw [← encodeXYN_fields (w := w) rfl rfl, show 0xF00F#16 = 0xF#4 ++ 0x0#4 ++ 0x0#4 ++ 0xF#4 from rfl]
  rw [encodeXYN, BitVec.and_append, BitVec.and_append, BitVec.and_append, hf, hn, BitVec.and_zero, BitVec.and_zero]
  rfl

theorem and_lowByteMask (w : Word) : w &&& 0xF0FF#16 = encodeXK w.family 0 w.kk := by
  have hf : w.family &&& 0xF#4 = w.family := BitVec.and_allOnes
  have hk : w.kk &&& 0xFF#8 = w.kk := BitVec.and_allOnes
  conv_lhs => rw [← encodeXK_fields (w := w) rfl rfl, show 0xF0FF#16 = 0xF#4 ++ 0x0#4 ++ 0xFF#8 from rfl]
  rw [encodeXK, BitVec.and_append, BitVec.and_append, hf, hk, BitVec.and_zero]
  rfl

theorem and_wholeMask (w : Word) : w &&& 0xFFFF#16 = w := BitVec.and_allOnes

/-- What the decoder compares in a family (R74). -/
def opcodeMask (f : Nibble) : Word :=
  if f = 0x0 then 0xFFFF#16 else if f = 0x8 then 0xF00F#16 else if f = 0xE ∨ f = 0xF then 0xF0FF#16 else 0xF000#16

theorem family_and_opcodeMask (w : Word) (f : Nibble) : Word.family (w &&& opcodeMask f) = w.family := by
  unfold opcodeMask
  split
  · rw [and_wholeMask]
  split
  · rw [and_lowNibbleMask, family_encodeXYN]
  split
  · rw [and_lowByteMask, family_encodeXK]
  · rw [and_familyMask, family_encodeA]

/-- The mnemonic depends on the compared bits alone. -/
theorem mnemonic_and_opcodeMask (w : Word) :
    (decodeWord (w &&& opcodeMask w.family)).mnemonic = (decodeWord w).mnemonic := by
  unfold decodeWord
  rw [family_and_opcodeMask]
  split
  case h_1 hf => rw [eq_ofNat_of_toNat_eq hf, show opcodeMask (BitVec.ofNat 4 0) = 0xFFFF#16 from rfl, and_wholeMask]
  case h_9 hf =>
    rw [eq_ofNat_of_toNat_eq hf, show opcodeMask (BitVec.ofNat 4 8) = 0xF00F#16 from rfl, and_lowNibbleMask, decodeFamily8,
      decodeFamily8, n_encodeXYN]
    split <;> rfl
  case h_15 hf =>
    rw [eq_ofNat_of_toNat_eq hf, show opcodeMask (BitVec.ofNat 4 14) = 0xF0FF#16 from rfl, and_lowByteMask, decodeFamilyE,
      decodeFamilyE, kk_encodeXK]
    split <;> rfl
  case h_16 =>
    have hlt := w.family.isLt
    simp only [imp_false] at *
    rw [eq_ofNat_of_toNat_eq (b := w.family) (k := 15) (by omega), show opcodeMask (BitVec.ofNat 4 15) = 0xF0FF#16 from rfl,
      and_lowByteMask, decodeFamilyF, decodeFamilyF, kk_encodeXK]
    split <;> rfl
  all_goals rfl

/-- The one row that can fit a word. -/
def rowOf (w : Word) : OpcodeRow := ⟨(decodeWord w).mnemonic, w &&& opcodeMask w.family, opcodeMask w.family⟩

theorem rowOf_encode_mem {i : Instr} (hwf : i.wellFormed = true) (h : ∀ w, i ≠ .unmapped w) :
    rowOf (encode i) ∈ opcodeTable := by
  rw [rowOf, decodeWord_encode hwf]
  cases i with
  | unmapped w => exact absurd rfl (h w)
  | cls | ret => decide
  | _ =>
    simp [encode, opcodeMask, and_familyMask, and_lowNibbleMask, and_lowByteMask, Instr.mnemonic]
    decide

/-- Each row compares what the decoder does, and carries the mnemonic of its value. -/
theorem opcodeTable_rows : ∀ r ∈ opcodeTable,
    r = ⟨(decodeWord r.value).mnemonic, r.value, opcodeMask (Word.family r.value)⟩ := by
  decide

theorem opcodeTable_nodup : opcodeTable.Nodup := by decide

theorem eq_rowOf_of_fits {r : OpcodeRow} {w : Word} (hr : r ∈ opcodeTable) (h : r.fits w = true) : r = rowOf w := by
  have hrow := opcodeTable_rows r hr
  have hv : w &&& r.mask = r.value := by simpa [OpcodeRow.fits] using h
  have hmask : r.mask = opcodeMask (Word.family r.value) := congrArg OpcodeRow.mask hrow
  have hf : Word.family r.value = w.family := by rw [← hv, hmask, family_and_opcodeMask]
  rw [hf] at hmask
  rw [hrow, hf, ← hv, hmask, mnemonic_and_opcodeMask, rowOf]

theorem rowOf_fits (w : Word) : (rowOf w).fits w = true := beq_self_eq_true _

theorem find?_opcodeTable_mnemonic (w : Word) :
    (decodeWord w).mnemonic = ((opcodeTable.find? fun r => r.fits w).map OpcodeRow.mnemonic).getD "UNMAPPED" := by
  cases hfind : opcodeTable.find? fun r => r.fits w with
  | some r =>
    have hfits : r.fits w = true := List.find?_some (p := fun r : OpcodeRow => r.fits w) hfind
    rw [eq_rowOf_of_fits (List.mem_of_find?_eq_some hfind) hfits]
    rfl
  | none =>
    obtain ⟨hwf, hw⟩ := decodeWord_standsFor w
    by_cases h : ∃ u, decodeWord w = .unmapped u
    · obtain ⟨u, hu⟩ := h
      rw [hu]; rfl
    · have hmem := rowOf_encode_mem hwf (not_exists.mp h)
      rw [hw] at hmem
      exact absurd (rowOf_fits w) (List.find?_eq_none.mp hfind _ hmem)

/-- Settles O3: at most one row, `rowOf w`, can fit a word, and it is in the table unless the word is unmapped. -/
theorem decoderAgreesWithTheOpcodeTable : Obligations.DecoderAgreesWithTheOpcodeTable := by
  refine fun w => ⟨find?_opcodeTable_mnemonic w, ?_⟩
  have hsub : (opcodeTable.filter fun r => r.fits w) ⊆ [rowOf w] := by
    intro r hr
    obtain ⟨hmem, hfits⟩ := List.mem_filter.mp hr
    exact List.mem_singleton.mpr (eq_rowOf_of_fits hmem hfits)
  exact (List.subperm_of_subset (opcodeTable_nodup.filter _) hsub).length_le

/-! ### Families 5 and 9, and sample words (R75, R80) -/

theorem decodeWord_wordXYN_5 (x y : Reg) (n : Nibble) : decodeWord (wordXYN 5 x y n) = .seReg x y n := by
  rw [wordXYN_eq (by decide)]
  exact Laws.RoundTrip.seReg x y n rfl

theorem decodeWord_wordXYN_9 (x y : Reg) (n : Nibble) : decodeWord (wordXYN 9 x y n) = .sneReg x y n := by
  rw [wordXYN_eq (by decide)]
  exact Laws.RoundTrip.sneReg x y n rfl

theorem exec_seReg (x y : Reg) (n : Nibble) (s : State) :
    exec (.seReg x y n) s = .next (s.skipIf (s.getV x == s.getV y)) := rfl

theorem exec_sneReg (x y : Reg) (n : Nibble) (s : State) :
    exec (.sneReg x y n) s = .next (s.skipIf (s.getV x != s.getV y)) := rfl

/-- Settles O5: the words decode by the round trip, and neither meaning mentions the low nibble. -/
theorem lowNibbleOfFamiliesFiveAndNineIsIgnored : Obligations.LowNibbleOfFamiliesFiveAndNineIsIgnored := by
  refine fun x y n s => ⟨decodeWord_wordXYN_5 x y n, decodeWord_wordXYN_9 x y n, ?_, ?_⟩
  · rw [exec_seReg, exec_seReg]
  · rw [exec_sneReg, exec_sneReg]

/-- Settles O6: eighteen closed decodings. -/
theorem sampleWordsDecode : Obligations.SampleWordsDecode := by
  unfold Obligations.SampleWordsDecode; decide

/-- Settles O34: both meanings are a skip on the comparison of the two registers. -/
theorem registerSkipsCompareTwoRegisters : Obligations.RegisterSkipsCompareTwoRegisters := by
  intro x y n s
  rw [exec_seReg, exec_sneReg, State.skipIf_beq, State.skipIf_bne]
  exact ⟨rfl, rfl⟩

end Sys2Proof.Machine

/-! ### What an execute phase may write (spec/10_state.md, spec/20_memory.md R50) -/

namespace Sys2Proof.Machine

/-- The pieces of state that only listed instructions write: i is a writer of all that differs. -/
structure WritesOnlyListed (i : Instr) (s t : State) : Prop where
  regs : ∀ r, i.writesV r = false → t.getV r = s.getV r
  index : i.writesI = false → t.i = s.i
  stack : i.writesStack = false → t.sp = s.sp ∧ t.stack = s.stack
  fb : i.writesFb = false → t.fb = s.fb
  mem : i.writesMem = false → t.mem = s.mem

/-- A state with the same five pieces was written by nothing. -/
theorem WritesOnlyListed.of_same {i : Instr} {s t : State} (hv : t.v = s.v) (hi : t.i = s.i) (hsp : t.sp = s.sp)
    (hstack : t.stack = s.stack) (hfb : t.fb = s.fb) (hmem : t.mem = s.mem) : WritesOnlyListed i s t where
  regs _ _ := by rw [State.getV, State.getV, hv]
  index _ := hi
  stack _ := ⟨hsp, hstack⟩
  fb _ := hfb
  mem _ := hmem

theorem WritesOnlyListed.raised (i : Instr) (code : BitVec 8) (info : Nat) (s : State) :
    WritesOnlyListed i s (Machine.raised code info s) := .of_same rfl rfl rfl rfl rfl rfl

theorem WritesOnlyListed.setPc (i : Instr) (s : State) (w : Word) : WritesOnlyListed i s (s.setPc w) :=
  .of_same rfl rfl rfl rfl rfl rfl

theorem WritesOnlyListed.skipIf (i : Instr) (s : State) (c : Bool) : WritesOnlyListed i s (s.skipIf c) := by
  rw [State.skipIf_eq]; exact .setPc i s _

theorem WritesOnlyListed.setV {i : Instr} {x : Reg} (hx : i.writesV x = true) (s : State) (b : Byte) :
    WritesOnlyListed i s (s.setV x b) where
  regs r hr := by rw [State.getV_setV, if_neg (by rintro rfl; rw [hx] at hr; cases hr)]
  index _ := rfl
  stack _ := ⟨rfl, rfl⟩
  fb _ := rfl
  mem _ := rfl

theorem WritesOnlyListed.setResultFlag {i : Instr} {x : Reg} (hx : i.writesV x = true) (hf : i.writesV 15 = true)
    (s : State) (b : Byte) (c : Bool) : WritesOnlyListed i s (s.setResultFlag x b c) where
  regs r hr := by
    rw [State.getV_setResultFlag, if_neg (by rintro rfl; rw [hf] at hr; cases hr),
      if_neg (by rintro rfl; rw [hx] at hr; cases hr)]
  index _ := rfl
  stack _ := ⟨rfl, rfl⟩
  fb _ := rfl
  mem _ := rfl

/-- A byte past the given ones leaves the register (Fx65). -/
theorem State.getV_loadV_of_length_le (s : State) {bs : List Byte} {r : Reg} (h : bs.length ≤ r.val) :
    (s.loadV bs).getV r = s.getV r := by
  rw [State.getV_loadV, List.getD_eq_default _ _ h]

theorem WritesOnlyListed.storeBytes {i : Instr} {s t : State} {bs : List Byte} (hi : i.writesMem = true)
    (h0 : bs.length ≠ 0) (h : s.storeBytes bs = .next t) : WritesOnlyListed i s t := by
  rcases s.storeBytes_cases h0 h with ⟨-, -, rfl⟩ | ⟨-, rfl⟩ | ⟨-, rfl⟩
  · exact ⟨fun _ _ => rfl, fun _ => rfl, fun _ => ⟨rfl, rfl⟩, fun _ => rfl, fun hm => by rw [hi] at hm; cases hm⟩
  · exact .raised _ _ _ _
  · exact .raised _ _ _ _

/-- Every execute phase keeps to the lists of writers. -/
theorem exec_writesOnlyListed {i : Instr} {s t : State} (h : exec i s = .next t) : WritesOnlyListed i s t := by
  cases i with
  | ret =>
    rcases execRet_cases h with ⟨-, rfl⟩ | ⟨_, -, rfl⟩
    · exact .raised _ _ _ _
    · exact ⟨fun _ _ => rfl, fun _ => rfl, nofun, fun _ => rfl, fun _ => rfl⟩
  | call nnn =>
    rcases execCall_cases h with ⟨-, rfl⟩ | ⟨-, rfl⟩
    · exact .raised _ _ _ _
    · exact ⟨fun _ _ => rfl, fun _ => rfl, nofun, fun _ => rfl, fun _ => rfl⟩
  | skp x =>
    rcases execSkp_cases h with ⟨-, rfl⟩ | ⟨-, rfl⟩
    · exact .raised _ _ _ _
    · exact .skipIf _ _ _
  | sknp x =>
    rcases execSknp_cases h with ⟨-, rfl⟩ | ⟨-, rfl⟩
    · exact .raised _ _ _ _
    · exact .skipIf _ _ _
  | drw x y n =>
    simp only [exec, execDrw] at h
    rcases State.loadBytes_cases h with ⟨-, rfl⟩ | ⟨-, -, rfl⟩
    · refine ⟨fun r hr => ?_, fun _ => rfl, fun _ => ⟨rfl, rfl⟩, nofun, fun _ => rfl⟩
      rw [State.getV_setFlag, if_neg (by simpa [Instr.writesV] using hr), State.getV_setFb]
    · exact .raised _ _ _ _
  | ldVxMem x =>
    rcases State.loadBytes_cases h with ⟨-, rfl⟩ | ⟨-, -, rfl⟩
    · refine ⟨fun r hr => s.getV_loadV_of_length_le ?_, fun _ => State.loadV_i _ _,
        fun _ => ⟨State.loadV_sp _ _, State.loadV_stack _ _⟩, fun _ => State.loadV_fb _ _, fun _ => State.loadV_mem _ _⟩
      have hlt : x < r := by simpa [Instr.writesV] using hr
      rw [Memory.length_readBytes]
      exact hlt
    · exact .raised _ _ _ _
  | ldBVx x => exact .storeBytes rfl (by simp [decimalDigits]) h
  | ldMemVx x => exact .storeBytes rfl (by simp) h
  | ldVxK x =>
    simp only [exec, execLdVxK] at h
    split at h
    · injection h with h; subst h; exact .setV (by simp [Instr.writesV]) _ _
    · injection h with h; subst h; exact .setPc _ _ _
  | jp | jpV0 => injection h with h; subst h; exact .setPc _ _ _
  | seImm | sneImm | seReg | sneReg => injection h with h; subst h; exact .skipIf _ _ _
  | ldImm x | addImm x | ldReg x | or x | and x | xor x | rnd x | ldVxDt x =>
    injection h with h; subst h; exact .setV (by simp [Instr.writesV]) _ _
  | addReg x | sub x | shr x | subn x | shl x =>
    injection h with h; subst h
    exact .setResultFlag (by simp [Instr.writesV]) (by simp [Instr.writesV]) _ _ _
  | ldI | addIVx | ldFVx =>
    injection h with h; subst h
    exact ⟨fun _ _ => rfl, nofun, fun _ => ⟨rfl, rfl⟩, fun _ => rfl, fun _ => rfl⟩
  | cls =>
    injection h with h; subst h
    exact ⟨fun _ _ => rfl, fun _ => rfl, fun _ => ⟨rfl, rfl⟩, nofun, fun _ => rfl⟩
  | ldDtVx | ldStVx | unmapped => injection h with h; subst h; exact .of_same rfl rfl rfl rfl rfl rfl

/-- The state a Step leaves, from what its execute phase left: the tick and the draw, or the start state with the record. -/
theorem step_ready_cases {s t : State} (hs : s.Ready) (h : step s = .next t) :
    ∃ u, exec (decodeWord s.fetch) s.advance = .next u ∧
      ((u.fault.code = 0 ∧ t = u.tick.spendDraw) ∨ (u.fault.code ≠ 0 ∧ t = { s with fault := u.fault })) := by
  rcases step_cases h with ⟨hf, -⟩ | ⟨-, c, hc, -⟩ | ⟨-, u, hu, rfl⟩
  · exact absurd hs.noFault hf
  · rw [hs.fetchFault] at hc; cases hc
  · refine ⟨u, hu, ?_⟩
    by_cases hu0 : u.fault.code = 0
    · exact .inl ⟨hu0, State.finish_ok hu0⟩
    · exact .inr ⟨hu0, State.finish_faulted hu0⟩

/-- Settles O13: the tick, the draw and the fault entry write none of the listed pieces, so the execute phase's lists are the Step's. -/
theorem onlyTheListedInstructionsWrite : Obligations.OnlyTheListedInstructionsWrite := by
  intro s t hs h i
  obtain ⟨u, hu, ⟨-, rfl⟩ | ⟨-, rfl⟩⟩ := step_ready_cases hs h
  · obtain ⟨hv, hi, hstack, hfb, hmem⟩ := exec_writesOnlyListed hu
    exact ⟨hv, hi, hstack, hfb, fun hm a => congrArg (Memory.read · a) (hmem hm), (exec_leaves hu).key⟩
  · exact ⟨fun _ _ => rfl, fun _ => rfl, fun _ => ⟨rfl, rfl⟩, fun _ => rfl, fun _ _ => rfl, rfl⟩

/-! ### A Step that faults (spec/40_cycle.md R109, spec/60_exceptions.md R212) -/

/-- The record of a fault raised after the advance: the fetch address and the fetched word. -/
theorem raised_advance_fault (code : BitVec 8) (info : Nat) (s : State) :
    (raised code info s.advance).fault = ⟨code, s.pc, s.fetch, BitVec.ofNat 17 info⟩ := by
  have hpc : s.advance.pc - 2 = s.pc := BitVec.add_sub_cancel _ _
  rw [raised, hpc, State.advance_opcode]

theorem FaultCode.number_eq_one {c : FaultCode} : c.number = 1 ↔ c = .pcOutOfRange := by cases c <;> decide

theorem FaultCode.number_eq_two {c : FaultCode} : c.number = 2 ↔ c = .pcMisaligned := by cases c <;> decide

/-- The fetch check raises the codes 1 and 2 alone. -/
theorem fetchFault_code {pc : Word} {c : FaultCode} (h : fetchFault pc = some c) :
    c = .pcOutOfRange ∨ c = .pcMisaligned := by
  unfold fetchFault at h
  split at h
  · injection h with h; exact .inl h.symm
  · split at h
    · injection h with h; exact .inr h.symm
    · cases h

/-- Settles O10: the fetch check writes the record with opcode 0, an execute phase with the fetched word, and both leave the rest. -/
theorem faultingStepRestoresTheState : Obligations.FaultingStepRestoresTheState := by
  intro s t hs0 h ht
  rcases step_cases h with ⟨hf, -⟩ | ⟨-, c, hc, rfl⟩ | ⟨hs, -⟩
  · exact absurd hs0 hf
  · refine ⟨rfl, rfl, fun _ => rfl, fun h1 h2 => ?_⟩
    rcases fetchFault_code hc with rfl | rfl
    · exact absurd rfl h1
    · exact absurd rfl h2
  · obtain ⟨u, hu, ⟨hu0, rfl⟩ | ⟨hu0, rfl⟩⟩ := step_ready_cases hs h
    · exact absurd hu0 ht
    · rcases (exec_leaves hu).fault with hkeep | ⟨c, info, hc1, hc2, rfl⟩
      · rw [hkeep] at hu0; exact absurd hs0 hu0
      · rw [raised_advance_fault]
        refine ⟨rfl, rfl, fun hcode => ?_, fun _ _ => rfl⟩
        rcases hcode with hcode | hcode
        · exact absurd (FaultCode.number_eq_one.mp hcode) hc1
        · exact absurd (FaultCode.number_eq_two.mp hcode) hc2

/-! ### The bytes below 0x200 (spec/20_memory.md R55, D7) -/

/-- Memory as before, or with bytes stored at I inside 0x200 to 0xFFF. -/
def MemKeptOrStored (s t : State) : Prop :=
  t.mem = s.mem ∨
    ∃ bs : List Byte, 0x200 ≤ s.i.toNat ∧ s.i.toNat + bs.length ≤ 4096 ∧ t.mem = s.mem.writeBytes s.i.toNat bs

theorem MemKeptOrStored.storeBytes {s t : State} {bs : List Byte} (h0 : bs.length ≠ 0)
    (h : s.storeBytes bs = .next t) : MemKeptOrStored s t := by
  rcases s.storeBytes_cases h0 h with ⟨hlo, hhi, rfl⟩ | ⟨-, rfl⟩ | ⟨-, rfl⟩
  · exact .inr ⟨bs, hlo, hhi, rfl⟩
  · exact .inl rfl
  · exact .inl rfl

theorem exec_memKeptOrStored {i : Instr} {s t : State} (h : exec i s = .next t) : MemKeptOrStored s t := by
  by_cases hm : i.writesMem = false
  · exact .inl ((exec_writesOnlyListed h).mem hm)
  · cases i with
    | ldBVx x => exact .storeBytes (by simp [decimalDigits]) h
    | ldMemVx x => exact .storeBytes (by simp) h
    | _ => exact absurd rfl hm

/-- A Step leaves every byte below 0x200. -/
theorem step_read_reserved {s t : State} {a : Nat} (ha : a < 0x200) (h : step s = .next t) :
    t.mem.read a = s.mem.read a := by
  rcases step_cases h with ⟨-, rfl⟩ | ⟨-, c, -, rfl⟩ | ⟨hs, -⟩
  · rfl
  · rfl
  · obtain ⟨u, hu, ⟨-, rfl⟩ | ⟨-, rfl⟩⟩ := step_ready_cases hs h
    · rw [State.spendDraw_mem, State.tick_mem]
      rcases exec_memKeptOrStored hu with hmem | ⟨bs, hlo, -, hmem⟩
      · rw [hmem, State.advance_mem]
      · rw [hmem, Memory.read_writeBytes_outside (.inl (by omega)), State.advance_mem]
    · rfl

/-- Everything Step(RAND) can have done: a Step with that RAND, and what it returns. -/
theorem stepWith_cases {rand : Byte} {s t : State} {r : HostResult} (h : stepWith rand s = .next (t, r)) :
    ∃ u, step (s.setRand (some rand)) = .next u ∧ t = u.setRand none ∧ r = u.stepResult := by
  unfold stepWith at h
  split at h
  next u hu => injection h with h; injection h with ht hr; exact ⟨u, hu, ht.symm, hr.symm⟩
  next => cases h
  next => cases h

/-- Everything LoadROM can have done. -/
theorem loadRom_cases {s t : State} {bytes : List Byte} {r : HostResult} (h : s.loadRom bytes = (t, r)) :
    (3584 < bytes.length ∧ t = s ∧ r = .romTooLarge) ∨
    (bytes.length ≤ 3584 ∧ t = s.setMem (s.mem.writeBytes 0x200 bytes) ∧ r = .ok) := by
  unfold State.loadRom at h
  split at h
  next hlen => injection h with ht hr; exact .inl ⟨hlen, ht.symm, hr.symm⟩
  next hlen => injection h with ht hr; exact .inr ⟨by omega, ht.symm, hr.symm⟩

/-- Settles O14: a store of a Step begins at 0x200 or above, and so does LoadROM; no other operation but Reset writes MEM. -/
theorem reservedMemoryIsNeverChanged : Obligations.ReservedMemoryIsNeverChanged := by
  refine fun s t a ha => ⟨step_read_reserved ha, fun o r hreset h => ?_⟩
  cases o with
  | reset font seed => exact absurd rfl (hreset font seed)
  | loadRom bytes =>
    injection h with h
    rcases loadRom_cases h with ⟨-, rfl, -⟩ | ⟨-, rfl, -⟩
    · rfl
    · rw [State.setMem_mem, Memory.read_writeBytes_outside (.inl ha)]
  | step rand =>
    obtain ⟨u, hu, rfl, -⟩ := stepWith_cases h
    rw [State.setRand_mem, step_read_reserved ha hu, State.setRand_mem]
  | setKeys keys => injection h with h; injection h with h; subst h; rfl
  | read => injection h with h; injection h with h; subst h; rfl

end Sys2Proof.Machine

/-! ### The invariant of CORE (spec/10_state.md sections 3, 5 and 10) -/

namespace Sys2Proof.Machine

/-- The part of the invariant that speaks of SP and STACK. -/
structure State.StackOk (s : State) : Prop where
  sp : s.sp.toNat ≤ 16
  entries : ∀ j : Fin 16, j.val < s.sp.toNat → ReturnAddress s.stack[j]

theorem State.Inv.stackOk {s : State} (h : s.Inv) : s.StackOk := ⟨h.sp, h.stack⟩

theorem State.StackOk.of_same {s t : State} (h : s.StackOk) (hsp : t.sp = s.sp) (hstack : t.stack = s.stack) :
    t.StackOk := ⟨by rw [hsp]; exact h.sp, by rw [hsp, hstack]; exact h.entries⟩

/-- The address a CALL pushes is even and in 0x202 to 0x1000. -/
theorem State.Ready.returnAddress {s : State} (h : s.Ready) : ReturnAddress s.advance.pc := by
  have hlow := h.low; have hhigh := h.high; have heven := h.even
  rw [ReturnAddress, h.advance_pc_toNat]
  omega

theorem State.push_sp_toNat {s : State} (h : s.sp.toNat < 16) (w : Word) : (s.push w).sp.toNat = s.sp.toNat + 1 := by
  rw [State.push_sp, BitVec.toNat_add]; simp; omega

theorem State.push_stack_get (s : State) (w : Word) (j : Fin 16) :
    (s.push w).stack[j] = if s.sp.toNat = j.val then w else s.stack[j] := by
  rw [State.push_stack]
  exact Vector.getElem_setIfInBounds j.isLt

/-- A push of a return address keeps the stack in order. -/
theorem State.StackOk.push {s : State} {w : Word} (h : s.StackOk) (hlt : s.sp.toNat < 16) (hw : ReturnAddress w) :
    (s.push w).StackOk where
  sp := by rw [State.push_sp_toNat hlt]; omega
  entries j hj := by
    rw [State.push_sp_toNat hlt] at hj
    rw [State.push_stack_get]
    split
    next => exact hw
    next hne => exact h.entries j (by omega)

theorem toNat_ofNat_of_lt {w n : Nat} (h : n < 2 ^ w) : (BitVec.ofNat w n).toNat = n := by
  rw [BitVec.toNat_ofNat, Nat.mod_eq_of_lt h]

/-- An execute phase keeps the stack in order: only 2nnn and 00EE touch it. -/
theorem exec_stackOk {i : Instr} {s t : State} (hs : s.Ready) (hstack : s.StackOk)
    (h : exec i s.advance = .next t) : t.StackOk := by
  by_cases hw : i.writesStack = false
  · obtain ⟨hsp, hst⟩ := (exec_writesOnlyListed h).stack hw
    exact hstack.of_same hsp hst
  · cases i with
    | call nnn =>
      rcases execCall_cases h with ⟨-, rfl⟩ | ⟨hlt, rfl⟩
      · exact hstack.of_same rfl rfl
      · exact (State.StackOk.push (s := s.advance) (hstack.of_same rfl rfl) hlt hs.returnAddress).of_same rfl rfl
    | ret =>
      rcases execRet_cases h with ⟨-, rfl⟩ | ⟨j, hj, rfl⟩
      · exact hstack.of_same rfl rfl
      · have hsp : s.sp.toNat = j.val + 1 := hj
        have hsp16 := hstack.sp
        refine ⟨?_, fun k hk => hstack.entries k ?_⟩
        · rw [toNat_ofNat_of_lt (by omega)]; omega
        · rw [toNat_ofNat_of_lt (by omega)] at hk; omega
    | _ => exact absurd rfl hw

/-- But for 00EE, whose PC is a stack entry, R25's table stays at or below 0x10FE (R26). -/
theorem pcAfter_le {i : Instr} {s : State} (hs : s.Ready) (hi : i ≠ .ret) : pcAfter i s ≤ 0x10FE := by
  have hhigh := hs.high
  cases i with
  | ret => exact absurd rfl hi
  | jp nnn | call nnn => have := nnn.isLt; simp only [pcAfter]; omega
  | jpV0 nnn => have := nnn.isLt; have := (s.getV 0).isLt; simp only [pcAfter]; omega
  | seImm | sneImm | seReg | sneReg | skp | sknp | ldVxK => simp only [pcAfter]; split <;> omega
  | _ => simp only [pcAfter]; omega

/-- PC after a completed execute phase is at most 0x10FE. -/
theorem exec_pc_le {i : Instr} {s t : State} (hs : s.Ready) (hstack : s.StackOk) (h : exec i s.advance = .next t)
    (h0 : t.fault.code = 0) : t.pc.toNat ≤ 0x10FE := by
  by_cases hi : i = .ret
  · subst hi
    rcases execRet_cases h with ⟨-, rfl⟩ | ⟨j, hj, rfl⟩
    · cases h0
    · have hsp : s.sp.toNat = j.val + 1 := hj
      obtain ⟨-, hle, -⟩ := hstack.entries j (by omega)
      exact hle.trans (by decide)
  · rw [exec_advance_pc hs h h0]
    exact pcAfter_le hs hi

/-- An execute phase keeps memory in its canonical form: a store ends inside the 4096 bytes. -/
theorem exec_mem_wf {i : Instr} {s t : State} (hwf : s.mem.wf = true) (h : exec i s = .next t) : t.mem.wf = true := by
  rcases exec_memKeptOrStored h with hmem | ⟨bs, -, hhi, hmem⟩
  · rw [hmem]; exact hwf
  · rw [hmem]; exact Memory.wf_writeBytes hwf hhi

/-! The record of each fault an execute phase can raise is precise (R211). -/

theorem raised_memOutOfRange_fits (s : State) :
    (raised 5 (max s.i.toNat 4096) s).fault.Fits s.sp .memOutOfRange := by
  have hi := s.i.isLt
  rw [FaultRecord.Fits, raised, toNat_ofNat_of_lt (by omega)]
  omega

theorem raised_reservedWrite_fits {s : State} (h : s.i.toNat < 0x200) :
    (raised 6 s.i.toNat s).fault.Fits s.sp .reservedWrite := by
  rw [FaultRecord.Fits, raised, toNat_ofNat_of_lt (by omega)]
  exact h

theorem raised_keyOutOfRange_fits {s : State} {b : Byte} (h : 16 ≤ b.toNat) :
    (raised 7 b.toNat s).fault.Fits s.sp .keyOutOfRange := by
  have hb := b.isLt
  rw [FaultRecord.Fits, raised, toNat_ofNat_of_lt (by omega)]
  omega

/-- The fault record after an execute phase: untouched, or the precise record of the fault just raised. -/
def RecordKeptOrPrecise (s t : State) : Prop :=
  t.fault = s.fault ∨ ∃ c info, t = raised (FaultCode.number c) info s ∧ t.fault.Fits s.sp c

theorem RecordKeptOrPrecise.raised {s t : State} (c : FaultCode) (info : Nat)
    (h : t = Machine.raised c.number info s) (hfits : (Machine.raised c.number info s).fault.Fits s.sp c) :
    RecordKeptOrPrecise s t := .inr ⟨c, info, h, by rw [h]; exact hfits⟩

theorem RecordKeptOrPrecise.storeBytes {s t : State} {bs : List Byte} (h0 : bs.length ≠ 0)
    (h : s.storeBytes bs = .next t) : RecordKeptOrPrecise s t := by
  rcases s.storeBytes_cases h0 h with ⟨-, -, rfl⟩ | ⟨hlo, ht⟩ | ⟨-, ht⟩
  · exact .inl rfl
  · exact .raised .reservedWrite _ ht (raised_reservedWrite_fits hlo)
  · exact .raised .memOutOfRange _ ht (raised_memOutOfRange_fits s)

theorem RecordKeptOrPrecise.loadBytes {s t : State} {n : Nat} {use : List Byte → State}
    (huse : ∀ bs, (use bs).fault = s.fault) (h : s.loadBytes n use = .next t) : RecordKeptOrPrecise s t := by
  rcases State.loadBytes_cases h with ⟨-, rfl⟩ | ⟨-, -, ht⟩
  · exact .inl (huse _)
  · exact .raised .memOutOfRange _ ht (raised_memOutOfRange_fits s)

theorem RecordKeptOrPrecise.skipIf (s : State) (c : Bool) : RecordKeptOrPrecise s (s.skipIf c) := by
  rw [State.skipIf_eq]; exact .inl rfl

theorem exec_recordKeptOrPrecise {i : Instr} {s t : State} (h : exec i s = .next t) : RecordKeptOrPrecise s t := by
  cases i with
  | ret =>
    rcases execRet_cases h with ⟨hsp, ht⟩ | ⟨_, -, rfl⟩
    · exact .raised .stackUnderflow 0 ht ⟨hsp, rfl⟩
    · exact .inl rfl
  | call nnn =>
    rcases execCall_cases h with ⟨hsp, ht⟩ | ⟨-, rfl⟩
    · exact .raised .stackOverflow 16 ht ⟨hsp, rfl⟩
    · exact .inl rfl
  | skp x =>
    rcases execSkp_cases h with ⟨hk, ht⟩ | ⟨-, rfl⟩
    · exact .raised .keyOutOfRange _ ht (raised_keyOutOfRange_fits hk)
    · exact .skipIf _ _
  | sknp x =>
    rcases execSknp_cases h with ⟨hk, ht⟩ | ⟨-, rfl⟩
    · exact .raised .keyOutOfRange _ ht (raised_keyOutOfRange_fits hk)
    · exact .skipIf _ _
  | drw x y n =>
    simp only [exec, execDrw] at h
    refine .loadBytes ?_ h
    exact fun _ => rfl
  | ldVxMem x => exact .loadBytes (State.loadV_fault s) h
  | ldBVx x => exact .storeBytes (by simp [decimalDigits]) h
  | ldMemVx x => exact .storeBytes (by simp) h
  | ldVxK x =>
    simp only [exec, execLdVxK] at h
    split at h <;> (injection h with h; subst h; exact .inl rfl)
  | seImm | sneImm | seReg | sneReg => injection h with h; subst h; exact .skipIf _ _
  | cls | jp | jpV0 | ldImm | addImm | ldReg | or | and | xor | addReg | sub | shr | subn | shl | ldI | rnd | ldVxDt
  | ldDtVx | ldStVx | addIVx | ldFVx | unmapped => injection h with h; subst h; exact .inl rfl

/-- Without a fault code the record of a state in order is clear. -/
theorem State.FaultOk.clear {s : State} (h : s.FaultOk) (h0 : s.fault.code = 0) : s.fault = ⟨0, 0, 0, 0⟩ := by
  rcases h with h | ⟨c, hc, -⟩
  · exact h
  · rw [h0] at hc; exact absurd hc.symm c.number_ne_zero

/-- The record of the fetch check is precise. -/
theorem takeFault_fetch_faultOk {s : State} {c : FaultCode} (h : fetchFault s.pc = some c) :
    (s.takeFault c 0 (s.pc.setWidth 17)).FaultOk := by
  have hinfo : (s.pc.setWidth 17).toNat = s.pc.toNat := BitVec.toNat_setWidth_of_le (by decide)
  refine .inr ⟨c, rfl, rfl, ?_⟩
  rw [State.takeFault_fault, State.takeFault_sp]
  unfold fetchFault at h
  split at h
  next hrange => injection h with h; subst h; exact ⟨rfl, hinfo, hrange⟩
  next =>
    split at h
    next hodd => injection h with h; subst h; exact ⟨rfl, hinfo, hodd⟩
    next => cases h

/-- Settles O18: memory, stack, PC and record, each by what the execute phase does to it; a Step that faults keeps the first three. -/
theorem stepKeepsTheInvariant : Obligations.StepKeepsTheInvariant := by
  intro s t hinv h
  rcases step_cases h with ⟨-, rfl⟩ | ⟨-, c, hc, rfl⟩ | ⟨hs, -⟩
  · exact hinv
  · exact ⟨hinv.mem, hinv.sp, hinv.stack, hinv.pc, takeFault_fetch_faultOk hc⟩
  · obtain ⟨u, hu, ⟨hu0, rfl⟩ | ⟨hu0, rfl⟩⟩ := step_ready_cases hs h
    · obtain ⟨hsp, hentries⟩ := exec_stackOk hs hinv.stackOk hu
      have hmem : u.mem.wf = true := exec_mem_wf (s := s.advance) hinv.mem hu
      have hpc : u.pc.toNat ≤ 0x10FE := exec_pc_le hs hinv.stackOk hu hu0
      refine ⟨hmem, hsp, hentries, hpc, .inl ?_⟩
      rcases exec_recordKeptOrPrecise hu with hkeep | ⟨c, info, rfl, -⟩
      · exact hkeep.trans (hinv.fault.clear hs.noFault)
      · exact absurd hu0 c.number_ne_zero
    · refine ⟨hinv.mem, hinv.sp, hinv.stack, hinv.pc, ?_⟩
      rcases exec_recordKeptOrPrecise hu with hkeep | ⟨c, info, rfl, hfits⟩
      · rw [hkeep] at hu0; exact absurd hs.noFault hu0
      · rw [raised_advance_fault] at hfits ⊢
        exact .inr ⟨c, rfl, rfl, hfits⟩

/-! ### Reset and the host's operations keep the invariant -/

theorem reset_inv : State.reset.Inv where
  mem := rfl
  sp := by decide
  stack j hj := absurd hj (Nat.not_lt_zero _)
  pc := by decide
  fault := .inl rfl

/-- New memory in canonical form keeps the invariant. -/
theorem State.Inv.setMem {s : State} (h : s.Inv) {m : Memory} (hm : m.wf = true) : (s.setMem m).Inv :=
  ⟨hm, h.sp, h.stack, h.pc, h.fault⟩

theorem State.Inv.setRand {s : State} (h : s.Inv) (r : Option Byte) : (s.setRand r).Inv :=
  ⟨h.mem, h.sp, h.stack, h.pc, h.fault⟩

theorem State.Inv.setKeys {s : State} (h : s.Inv) (k : Vector Bool 16) : (s.setKeys k).Inv :=
  ⟨h.mem, h.sp, h.stack, h.pc, h.fault⟩

theorem resetWith_inv (font : Vector Byte 80) (seed : Nat) : (State.resetWith font seed).Inv := by
  have hlen : 0x050 + font.toList.length ≤ 4096 := by rw [Vector.length_toList]; decide
  exact ⟨Memory.wf_writeBytes reset_inv.mem hlen, reset_inv.sp, reset_inv.stack, reset_inv.pc, reset_inv.fault⟩

/-- Settles O19: the FONT ends inside memory, and every other term is a constant. -/
theorem resetMeetsTheInvariant : Obligations.ResetMeetsTheInvariant := ⟨reset_inv, resetWith_inv⟩

/-- Settles O56: LoadROM ends inside memory, Step(RAND) is a Step, Reset gives the reset state, and the others write no term. -/
theorem hostOperationsKeepTheInvariant : Obligations.HostOperationsKeepTheInvariant := by
  intro s t o r hinv h
  cases o with
  | reset font seed => injection h with h; injection h with h; subst h; exact resetWith_inv font seed
  | loadRom bytes =>
    injection h with h
    rcases loadRom_cases h with ⟨-, rfl, -⟩ | ⟨hlen, rfl, -⟩
    · exact hinv
    · exact hinv.setMem (Memory.wf_writeBytes hinv.mem (by omega))
  | step rand =>
    obtain ⟨u, hu, rfl, -⟩ := stepWith_cases h
    exact (stepKeepsTheInvariant _ u (hinv.setRand _) hu).setRand none
  | setKeys keys => injection h with h; injection h with h; subst h; exact hinv.setKeys keys
  | read => injection h with h; injection h with h; subst h; exact hinv

/-! ### Every Step answers (spec/40_cycle.md section 1) -/

theorem loadBytes_answers (s : State) (n : Nat) (use : List Byte → State) : ∃ t, s.loadBytes n use = .next t := by
  unfold State.loadBytes
  split <;> exact ⟨_, rfl⟩

theorem storeBytes_answers (s : State) (bs : List Byte) : ∃ t, s.storeBytes bs = .next t := by
  unfold State.storeBytes
  split <;> exact ⟨_, rfl⟩

theorem execRet_illegal {s : State} (h : 16 < s.sp.toNat) : execRet s = .fault (.illegalStackPointer s.sp) := by
  have h0 : s.sp ≠ 0 := fun e => by rw [e] at h; exact absurd h (by decide)
  rw [execRet, if_neg h0, s.pop_illegal h]

theorem execCall_illegal {s : State} (nnn : Addr) (h : 16 < s.sp.toNat) :
    execCall nnn s = .fault (.illegalStackPointer s.sp) := by
  have h16 : s.sp ≠ 16 := fun e => by rw [e] at h; exact absurd h (by decide)
  rw [execCall, if_neg h16, if_neg (by omega)]

theorem execRet_answers {s : State} (h : s.sp.toNat ≤ 16) : ∃ t, execRet s = .next t := by
  unfold execRet
  split
  next => exact ⟨_, rfl⟩
  next h0 =>
    have hpos : s.sp.toNat ≠ 0 := fun e => h0 (BitVec.eq_of_toNat_eq e)
    rw [s.pop_eq ⟨s.sp.toNat - 1, by omega⟩ (by simp; omega)]
    exact ⟨_, rfl⟩

theorem execCall_answers {s : State} (nnn : Addr) (h : s.sp.toNat ≤ 16) : ∃ t, execCall nnn s = .next t := by
  unfold execCall
  split
  next => exact ⟨_, rfl⟩
  next h16 =>
    have hne : s.sp.toNat ≠ 16 := fun e => h16 (BitVec.eq_of_toNat_eq e)
    rw [if_pos (by omega)]
    exact ⟨_, rfl⟩

/-- An execute phase answers a next state, but for 2nnn and 00EE at an SP that is no legal value. -/
theorem exec_answers_or_illegal (i : Instr) (s : State) :
    (∃ t, exec i s = .next t) ∨ (16 < s.sp.toNat ∧ exec i s = .fault (.illegalStackPointer s.sp)) := by
  cases i with
  | ret =>
    by_cases h : 16 < s.sp.toNat
    · exact .inr ⟨h, execRet_illegal h⟩
    · exact .inl (execRet_answers (by omega))
  | call nnn =>
    by_cases h : 16 < s.sp.toNat
    · exact .inr ⟨h, execCall_illegal nnn h⟩
    · exact .inl (execCall_answers nnn (by omega))
  | drw x y n =>
    rw [exec, execDrw]
    exact .inl (loadBytes_answers _ _ _)
  | ldVxMem x => exact .inl (loadBytes_answers _ _ _)
  | ldBVx x => exact .inl (storeBytes_answers _ _)
  | ldMemVx x => exact .inl (storeBytes_answers _ _)
  | skp x | sknp x | ldVxK x =>
    simp only [exec, execSkp, execSknp, execLdVxK]
    split <;> exact .inl ⟨_, rfl⟩
  | _ => exact .inl ⟨_, rfl⟩

/-- Settles O28: no entry stands below such an SP, and 2nnn has no room above it. -/
theorem illegalStackPointerStops : Obligations.IllegalStackPointerStops := fun _ nnn h =>
  ⟨execCall_illegal nnn h, execRet_illegal h⟩

theorem step_answers {s : State} (hsp : s.sp.toNat ≤ 16) : ∃ t, step s = .next t := by
  by_cases h0 : s.fault.code = 0
  · rcases fetchFault_or_ready h0 with ⟨c, hc⟩ | hs
    · exact ⟨_, step_fetchFault h0 hc⟩
    · rcases exec_answers_or_illegal (decodeWord s.fetch) s.advance with ⟨u, hu⟩ | ⟨hlt, -⟩
      · exact ⟨_, step_ready_next hs hu⟩
      · rw [State.advance_sp] at hlt; omega
  · exact ⟨s, step_faulted h0⟩

/-- Settles O20: the one stop needs an SP above 16. -/
theorem stepAlwaysAnswersUnderTheInvariant : Obligations.StepAlwaysAnswersUnderTheInvariant := fun _ hinv =>
  step_answers hinv.sp

theorem hostApply_answers {s : State} (hsp : s.sp.toNat ≤ 16) (o : HostOp) : ∃ t r, hostApply o s = .next (t, r) := by
  cases o with
  | step rand =>
    obtain ⟨t, ht⟩ : ∃ t, step (s.setRand (some rand)) = .next t := step_answers hsp
    exact ⟨_, _, by rw [hostApply, stepWith, ht]⟩
  | reset font seed => exact ⟨_, _, rfl⟩
  | loadRom bytes => exact ⟨_, _, rfl⟩
  | setKeys keys => exact ⟨_, _, rfl⟩
  | read => exact ⟨_, _, rfl⟩

/-- The invariant holds along every run. -/
theorem Reachable.inv {s : State} (h : Reachable s) : s.Inv := by
  induction h with
  | reset font seed => exact resetWith_inv font seed
  | op o _ ho ih => exact hostOperationsKeepTheInvariant _ _ o _ ih ho
  | step _ ht ih => exact stepKeepsTheInvariant _ _ ih ht

/-- Settles O21: the invariant along the run, and with it every operation's answer. -/
theorem everyReachableStateIsSafeAndLive : Obligations.EveryReachableStateIsSafeAndLive := fun _ h =>
  ⟨h.inv, hostApply_answers h.inv.sp⟩

end Sys2Proof.Machine

/-! ### Canonical memories (log 6) -/

namespace Sys2Proof.Machine

/-- Below its first address a canonical memory reads as after reset. -/
theorem Memory.read_below {m : Memory} {lo a : Nat} (h : Memory.wfFrom lo m = true) (ha : a < lo) :
    m.read a = Memory.resetByte a := by
  induction m generalizing lo with
  | nil => rfl
  | cons c m ih =>
    obtain ⟨hlo, -, -, hrest⟩ := Memory.wfFrom_cons.mp h
    rw [Memory.read_cons, if_neg (by omega), ih hrest (by omega)]

/-- A canonical memory with an entry does not read as after reset at that entry. -/
theorem Memory.read_head_ne {lo : Nat} {c : Host.Cell} {m : Memory} (h : Memory.wfFrom lo (c :: m) = true) :
    Memory.read (c :: m) c.1 ≠ Memory.resetByte c.1 := by
  obtain ⟨-, -, hne, -⟩ := Memory.wfFrom_cons.mp h
  rwa [Memory.read_cons, if_pos rfl]

/-- Of two canonical memories that read alike, neither begins below the other. -/
theorem Memory.head_le_of_read_eq {lo : Nat} {c d : Host.Cell} {m m' : Memory} (h : Memory.wfFrom lo (c :: m) = true)
    (h' : Memory.wfFrom lo (d :: m') = true) (hread : ∀ a, Memory.read (c :: m) a = Memory.read (d :: m') a) :
    d.1 ≤ c.1 := by
  by_contra hlt
  obtain ⟨-, hd, hne, hrest⟩ := Memory.wfFrom_cons.mp h'
  have hwf : Memory.wfFrom d.1 (d :: m') = true := Memory.wfFrom_cons.mpr ⟨le_rfl, hd, hne, hrest⟩
  exact Memory.read_head_ne h ((hread c.1).trans (Memory.read_below hwf (by omega)))

theorem Memory.eq_of_read_eq {m m' : Memory} {lo : Nat} (h : Memory.wfFrom lo m = true)
    (h' : Memory.wfFrom lo m' = true) (hread : ∀ a, m.read a = m'.read a) : m = m' := by
  induction m generalizing m' lo with
  | nil =>
    cases m' with
    | nil => rfl
    | cons d m' => exact absurd (hread d.1).symm (Memory.read_head_ne h')
  | cons c m ih =>
    cases m' with
    | nil => exact absurd (hread c.1) (Memory.read_head_ne h)
    | cons d m' =>
      have haddr : c.1 = d.1 :=
        le_antisymm (Memory.head_le_of_read_eq h' h fun a => (hread a).symm) (Memory.head_le_of_read_eq h h' hread)
      have hbyte : c.2 = d.2 := by
        have := hread c.1
        rwa [Memory.read_cons, if_pos rfl, Memory.read_cons, if_pos haddr] at this
      obtain rfl : c = d := Prod.ext haddr hbyte
      obtain ⟨-, -, -, hrest⟩ := Memory.wfFrom_cons.mp h
      obtain ⟨-, -, -, hrest'⟩ := Memory.wfFrom_cons.mp h'
      rw [ih hrest hrest' fun a => ?_]
      by_cases ha : a = c.1
      · rw [Memory.read_below hrest (by omega), Memory.read_below hrest' (by omega)]
      · have := hread a
        rwa [Memory.read_cons, if_neg ha, Memory.read_cons, if_neg ha] at this

/-- Settles O22: the first entries agree, and what follows them reads alike again. -/
theorem equalReadsMeanEqualMemories : Obligations.EqualReadsMeanEqualMemories := fun _ _ => Memory.eq_of_read_eq

/-! ### The fetch after a store (spec/20_memory.md section 8, D20) -/

theorem fetch_eq {t : State} {byte : Nat → Byte} (hread : ∀ a, t.mem.read a = byte a) (p : Word) :
    ({ t with pc := p } : State).fetch = byte p.toNat ++ byte (p.toNat + 1) := by
  rw [State.fetch, bytesToWord, hread, hread]

theorem bytesStored_advance (i : Instr) (s : State) : bytesStored i s.advance = bytesStored i s := by
  cases i <;> rfl

/-- Settles O23: memory after the Step, and after LoadROM, is memory before it with the stored bytes. -/
theorem fetchSeesEarlierStores : Obligations.FetchSeesEarlierStores := by
  refine ⟨fun s t p hs h h0 => ?_, fun s t rom p h => ?_⟩
  · obtain ⟨u, hu, hu0, rfl⟩ := step_completed hs h h0
    refine fetch_eq (fun a => ?_) p
    rw [State.spendDraw_mem, State.tick_mem, exec_mem hu hu0, State.advance_mem, State.advance_i,
      bytesStored_advance, read_afterStore]
  · injection h with h
    rcases loadRom_cases h with ⟨-, -, hr⟩ | ⟨-, rfl, -⟩
    · cases hr
    · exact fetch_eq (read_afterStore s 0x200 rom) p

/-! ### Stores, loads and their faults (spec/44_index_memory.md) -/

theorem decodeWord_wordXK_F33 (x : Reg) : decodeWord (wordXK 0xF x 0x33) = .ldBVx x := by
  rw [wordXK_eq (by decide)]
  exact Laws.RoundTrip.ldBVx x rfl

theorem decodeWord_wordXK_F55 (x : Reg) : decodeWord (wordXK 0xF x 0x55) = .ldMemVx x := by
  rw [wordXK_eq (by decide)]
  exact Laws.RoundTrip.ldMemVx x rfl

theorem decodeWord_wordXK_F65 (x : Reg) : decodeWord (wordXK 0xF x 0x65) = .ldVxMem x := by
  rw [wordXK_eq (by decide)]
  exact Laws.RoundTrip.ldVxMem x rfl

theorem exec_ldBVx (x : Reg) (s : State) : exec (.ldBVx x) s = s.storeBytes (decimalDigits (s.getV x)) := rfl

theorem exec_ldMemVx (x : Reg) (s : State) : exec (.ldMemVx x) s = s.storeBytes (s.upTo x) := rfl

theorem exec_ldVxMem (x : Reg) (s : State) : exec (.ldVxMem x) s = s.loadBytes (x.val + 1) s.loadV := rfl

/-- The k-th stored byte is read back at its address. -/
theorem Memory.read_writeBytes_inside (m : Memory) (a : Nat) {k : Nat} {bs : List Byte} (h : k < bs.length) :
    (m.writeBytes a bs).read (a + k) = bs.getD k 0 := by
  rw [Memory.read_writeBytes, if_pos (by omega), Nat.add_sub_cancel_left]

theorem decimalDigits_length (b : Byte) : (decimalDigits b).length = 3 := rfl

/-- Settles O44: the store of three digits, in its three cases. -/
theorem ldBStoresTheDecimalDigits : Obligations.LdBStoresTheDecimalDigits := by
  refine fun x => ⟨decodeWord_wordXK_F33 x, fun s => ?_⟩
  have hlen := decimalDigits_length (s.getV x)
  have hv := (s.getV x).isLt
  rw [exec_ldBVx]
  refine ⟨fun hlo hhi => ⟨_, s.storeBytes_ok hlo (by omega), ?_, ?_, ?_, fun a ha => ?_, rfl⟩, fun hlo => ?_,
    fun hhi => ?_⟩
  · exact (congrArg BitVec.toNat (Memory.read_writeBytes_inside _ _ (k := 0) (by omega))).trans
      (toNat_ofNat_of_lt (by omega))
  · exact (congrArg BitVec.toNat (Memory.read_writeBytes_inside _ _ (k := 1) (by omega))).trans
      (toNat_ofNat_of_lt (by omega))
  · exact (congrArg BitVec.toNat (Memory.read_writeBytes_inside _ _ (k := 2) (by omega))).trans
      (toNat_ofNat_of_lt (by omega))
  · exact Memory.read_writeBytes_outside (by omega)
  · exact s.storeBytes_reserved (by omega) hlo
  · exact s.storeBytes_past (by omega) (by omega) (by omega)

/-- Settles O45: the store of V0 to V[x], in its three cases. -/
theorem ldMemStoresTheRegisters : Obligations.LdMemStoresTheRegisters := by
  refine fun x => ⟨decodeWord_wordXK_F55 x, fun s => ?_⟩
  have hlen := s.upTo_length x
  have hx := x.isLt
  rw [exec_ldMemVx]
  refine ⟨fun hlo hhi => ⟨_, s.storeBytes_ok hlo (by omega), fun k hk => ?_, fun a ha => ?_, rfl⟩, fun hlo => ?_,
    fun hhi => ?_⟩
  · have hkx : k.val ≤ x.val := hk
    rw [State.setMem_mem, Memory.read_writeBytes_inside _ _ (by omega), s.upTo_getD x k 0 hk]
  · exact Memory.read_writeBytes_outside (by omega)
  · exact s.storeBytes_reserved (by omega) hlo
  · exact s.storeBytes_past (by omega) (by omega) (by omega)

/-- A load writes the registers and nothing else. -/
theorem State.loadV_frame (s : State) (bs : List Byte) : s.loadV bs = { s with v := (s.loadV bs).v } := by
  rw [State.loadV_v]; unfold State.loadV; rfl

/-- Settles O46: the load of V0 to V[x], in its two cases. -/
theorem ldFromMemLoadsTheRegisters : Obligations.LdFromMemLoadsTheRegisters := by
  refine fun x => ⟨decodeWord_wordXK_F65 x, fun s => ?_⟩
  rw [exec_ldVxMem]
  refine ⟨fun hhi => ⟨_, s.loadBytes_ok s.loadV (.inr (by omega)), fun k hk => ?_, fun k hk => ?_, s.loadV_frame _⟩,
    fun hhi => s.loadBytes_past s.loadV (by omega) (by omega)⟩
  · have hkx : k.val ≤ x.val := hk
    rw [State.getV_loadV, Memory.readBytes_getD, if_pos (by omega)]
  · have hkx : x.val < k.val := hk
    exact s.getV_loadV_of_length_le (by rw [Memory.length_readBytes]; omega)

/-! ### Dxyn (spec/41_display.md R121 to R125) -/

theorem decodeWord_wordXYN_D (x y : Reg) (n : Nibble) : decodeWord (wordXYN 0xD x y n) = .drw x y n := by
  rw [wordXYN_eq (by decide)]
  exact Laws.RoundTrip.drw x y n rfl

/-- Settles O47: the load of the sprite's bytes faults before anything is drawn. -/
theorem drwFaultsPastMemory : Obligations.DrwFaultsPastMemory := by
  intro x y n s hn h
  have hn0 : n.toNat ≠ 0 := fun e => hn (BitVec.eq_of_toNat_eq e)
  rw [exec, execDrw]
  exact s.loadBytes_past _ hn0 h

/-- What drawing the n bytes at I leaves: the frame buffer and the collision. -/
def drawAt (s : State) (oy ox n : Nat) : FrameBuffer × Bool :=
  drawSprite oy ox (s.mem.readBytes s.i.toNat n) (s.fb, false)

/-- A completed Dxyn draws from the origin of Vx and Vy, then writes VF. -/
theorem exec_drw_ok (x y : Reg) {n : Nibble} {s : State} (h : n = 0 ∨ s.i.toNat + n.toNat ≤ 4096) :
    exec (.drw x y n) s = .next
      ((s.setFb (drawAt s ((s.getV y).toNat % 32) ((s.getV x).toNat % 64) n.toNat).1).setFlag
        (drawAt s ((s.getV y).toNat % 32) ((s.getV x).toNat % 64) n.toNat).2) := by
  rw [exec, execDrw, s.loadBytes_ok _ (h.imp_left fun e => by rw [e]; rfl)]
  rfl

theorem Memory.readBytes_getD_of_lt (m : Memory) (a : Nat) {n k : Nat} (h : k < n) :
    (m.readBytes a n).getD k 0 = m.read (a + k) := by
  rw [Memory.readBytes_getD, if_pos h]

theorem pixel_drawAt (s : State) (oy ox n : Nat) {r c : Nat} (hr : r < 32) (hc : c < 64) :
    (drawAt s oy ox n).1.pixel r c = (s.fb.pixel r c ^^ spriteBit s oy ox n r c) := by
  rw [drawAt, pixel_drawSprite, Memory.length_readBytes, spriteBit]
  by_cases hin : oy ≤ r ∧ r < oy + n ∧ ox ≤ c ∧ c < ox + 8
  · rw [Memory.readBytes_getD_of_lt _ _ (by omega)]
    simp [hin, hr, hc]
  · have hout : ¬(oy ≤ r ∧ r < oy + n ∧ ox ≤ c ∧ c < ox + 8 ∧ c < 64 ∧ r < 32) := by omega
    simp [hin, hout]

/-- The collision is that of some pixel of the grid that was on and that a set sprite bit falls on. -/
theorem collision_drawAt (s : State) (oy ox n : Nat) :
    (drawAt s oy ox n).2 = true ↔
      ∃ r c, r < 32 ∧ c < 64 ∧ s.fb.pixel r c = true ∧ spriteBit s oy ox n r c = true := by
  rw [drawAt, collision_drawSprite, Memory.length_readBytes]
  constructor
  · rintro (h | ⟨k, j, hk, hj, hbit, hon⟩)
    · cases h
    · have hgrid : ox + j < 64 ∧ oy + k < 32 := by
        by_contra hoff
        rw [FrameBuffer.pixel_off _ hoff] at hon
        cases hon
      refine ⟨oy + k, ox + j, hgrid.2, hgrid.1, hon, ?_⟩
      rw [Memory.readBytes_getD_of_lt _ _ hk] at hbit
      simp [spriteBit, hk, hj, hbit]
  · rintro ⟨r, c, -, -, hon, hbit⟩
    simp only [spriteBit, Bool.and_eq_true, decide_eq_true_eq] at hbit
    obtain ⟨⟨hr0, hr1, hc0, hc1⟩, hbit⟩ := hbit
    refine .inr ⟨r - oy, c - ox, by omega, by omega, ?_, ?_⟩
    · rw [Memory.readBytes_getD_of_lt _ _ (by omega)]; exact hbit
    · rw [show oy + (r - oy) = r by omega, show ox + (c - ox) = c by omega]; exact hon

/-- A collision is a pixel that goes from on to off. -/
theorem collision_drawAt_iff_erased (s : State) (oy ox n : Nat) :
    (drawAt s oy ox n).2 = true ↔
      ∃ r c, r < 32 ∧ c < 64 ∧ s.fb.pixel r c = true ∧ (drawAt s oy ox n).1.pixel r c = false := by
  rw [collision_drawAt]
  refine exists_congr fun r => exists_congr fun c => and_congr_right fun hr => and_congr_right fun hc =>
    and_congr_right fun hon => ?_
  rw [pixel_drawAt s oy ox n hr hc, hon]
  simp

/-- Settles O25: the pixels one by one, and VF from the collision. -/
theorem drwTogglesTheSpritePixels : Obligations.DrwTogglesTheSpritePixels := by
  refine fun x y n => ⟨decodeWord_wordXYN_D x y n, ?_⟩
  intro s h oy ox
  refine ⟨_, exec_drw_ok x y h, ?pixels, ?erased, ?kept, fun r hr => ?others, rfl⟩
  case pixels => exact fun r c hr hc => pixel_drawAt s oy ox n.toNat hr hc
  case erased =>
    intro herased
    have hcol : (drawAt s oy ox n.toNat).2 = true := (collision_drawAt_iff_erased s oy ox n.toNat).mpr herased
    rw [State.getV_setFlag, if_pos rfl, hcol]
    rfl
  case kept =>
    intro hkept
    have hcol : (drawAt s oy ox n.toNat).2 = false := by
      rw [← Bool.not_eq_true, collision_drawAt_iff_erased]
      rintro ⟨r, c, hr, hc, hon, hoff⟩
      have hstill : (drawAt s oy ox n.toNat).1.pixel r c = true := hkept r c hr hc hon
      rw [hoff] at hstill
      cases hstill
    rw [State.getV_setFlag, if_pos rfl, hcol]
    rfl
  case others => rw [State.getV_setFlag, if_neg hr, State.getV_setFb]

end Sys2Proof.Machine

/-! ### What no instruction, or only a listed one, reads: ST, KEY, RAND (spec/10_state.md R31, R32, spec/40_cycle.md R112) -/

namespace Sys2Proof.Machine

/-- The same state with other values in ST, in KEY and in the place RAND is taken from. -/
def State.withInputs (s : State) (b : Byte) (k : Vector Bool 16) (r : Option Byte) : State :=
  { s with st := b, key := k, randArg := r }

/-- A next state changed, and a stop as it is. -/
def mapNext (f : State → State) : Outcome → Outcome
  | .next t => .next (f t)
  | .fault r => .fault r
  | .refused r => .refused r

theorem raise_withInputs (b : Byte) (k : Vector Bool 16) (r : Option Byte) (c : FaultCode) (info : Nat) (s : State) :
    raise c info (s.withInputs b k r) = mapNext (·.withInputs b k r) (raise c info s) := rfl

theorem skipIf_withInputs (s : State) (b : Byte) (k : Vector Bool 16) (r : Option Byte) (c : Bool) :
    (s.withInputs b k r).skipIf c = (s.skipIf c).withInputs b k r := by
  rw [State.skipIf_eq, State.skipIf_eq]; rfl

theorem loadV_withInputs (s : State) (b : Byte) (k : Vector Bool 16) (r : Option Byte) (bs : List Byte) :
    (s.withInputs b k r).loadV bs = (s.loadV bs).withInputs b k r := by
  unfold State.loadV; rfl

theorem loadBytes_withInputs {s : State} {b : Byte} {k : Vector Bool 16} {r : Option Byte} {n : Nat}
    {use use' : List Byte → State} (huse : ∀ bs, use' bs = (use bs).withInputs b k r) :
    (s.withInputs b k r).loadBytes n use' = mapNext (·.withInputs b k r) (s.loadBytes n use) := by
  have hcheck : firstFault readFault (s.withInputs b k r).i.toNat n = firstFault readFault s.i.toNat n := rfl
  unfold State.loadBytes
  rw [hcheck]
  split
  · exact raise_withInputs b k r _ _ s
  · rw [huse]; rfl

theorem storeBytes_withInputs (s : State) (b : Byte) (k : Vector Bool 16) (r : Option Byte) (bs : List Byte) :
    (s.withInputs b k r).storeBytes bs = mapNext (·.withInputs b k r) (s.storeBytes bs) := by
  have hcheck : firstFault writeFault (s.withInputs b k r).i.toNat bs.length =
      firstFault writeFault s.i.toNat bs.length := rfl
  unfold State.storeBytes
  rw [hcheck]
  split <;> rfl

theorem State.pop_eq_map (s : State) :
    s.pop = s.stack[s.sp.toNat - 1]?.map fun w => (w, { s with sp := s.sp - 1 }) := by
  unfold State.pop
  cases s.stack[s.sp.toNat - 1]? <;> rfl

theorem pop_withInputs (s : State) (b : Byte) (k : Vector Bool 16) (r : Option Byte) :
    (s.withInputs b k r).pop = s.pop.map fun p => (p.1, p.2.withInputs b k r) := by
  rw [State.pop_eq_map, State.pop_eq_map, Option.map_map]; rfl

theorem execRet_withInputs (s : State) (b : Byte) (k : Vector Bool 16) (r : Option Byte) :
    execRet (s.withInputs b k r) = mapNext (·.withInputs b k r) (execRet s) := by
  unfold execRet
  rw [pop_withInputs]
  change (if s.sp = 0 then _ else _) = _
  split
  · rfl
  · cases s.pop <;> rfl

theorem execCall_withInputs (nnn : Addr) (s : State) (b : Byte) (k : Vector Bool 16) (r : Option Byte) :
    execCall nnn (s.withInputs b k r) = mapNext (·.withInputs b k r) (execCall nnn s) := by
  unfold execCall
  change (if s.sp = 16 then _ else if s.sp.toNat < 16 then _ else _) = _
  split
  · rfl
  split <;> rfl

/-- An execute phase is the same whatever ST, and whatever KEY and RAND where its instruction does not read them; ST stays but where
Fx18 writes it. -/
theorem exec_withInputs {i : Instr} {s : State} {b : Byte} {k : Vector Bool 16} {r : Option Byte}
    (hk : i.readsKey = true → k = s.key) (hr : i.readsRand = true → r = s.randArg) :
    exec i (s.withInputs b k r) = mapNext (·.withInputs (stBeforeTick i { s with st := b }) k r) (exec i s) := by
  cases i with
  | ret => exact execRet_withInputs s b k r
  | call nnn => exact execCall_withInputs nnn s b k r
  | drw x y n =>
    rw [exec, execDrw, exec, execDrw]
    exact loadBytes_withInputs fun _ => rfl
  | ldVxMem x => exact loadBytes_withInputs (loadV_withInputs s b k r)
  | ldBVx x => exact storeBytes_withInputs s b k r (decimalDigits (s.getV x))
  | ldMemVx x => exact storeBytes_withInputs s b k r (s.upTo x)
  | skp x | sknp x =>
    obtain rfl : k = s.key := hk rfl
    have hkey : (s.withInputs b s.key r).keyAt ((s.withInputs b s.key r).getV x) = s.keyAt (s.getV x) := rfl
    simp only [exec, execSkp, execSknp, hkey]
    split
    · exact congrArg Host.Outcome.next (skipIf_withInputs s b s.key r _)
    · rfl
  | ldVxK x =>
    obtain rfl : k = s.key := hk rfl
    have hkey : (s.withInputs b s.key r).lowestKey = s.lowestKey := rfl
    simp only [exec, execLdVxK, hkey]
    split <;> rfl
  | rnd x kk =>
    obtain rfl : r = s.randArg := hr rfl
    rfl
  | seImm | sneImm | seReg | sneReg => exact congrArg Host.Outcome.next (skipIf_withInputs s b k r _)
  | _ => rfl

/-- The end of a Step, from a start state that differs in its inputs. -/
theorem finish_withInputs (s u : State) (b c : Byte) (k : Vector Bool 16) (r : Option Byte) :
    ∃ b' r', (b = s.st → c = u.st → b' = (s.finish u).st) ∧ (r = s.randArg → r' = (s.finish u).randArg) ∧
      (s.withInputs b k r).finish (u.withInputs c k r) = (s.finish u).withInputs b' k r' := by
  by_cases h0 : u.fault.code = 0
  · rw [State.finish_ok h0, State.finish_ok (show (u.withInputs c k r).fault.code = 0 from h0)]
    exact ⟨tickTimer c, none, fun _ hc => congrArg tickTimer hc, fun _ => rfl, rfl⟩
  · rw [State.finish_faulted h0, State.finish_faulted (show (u.withInputs c k r).fault.code ≠ 0 from h0)]
    exact ⟨b, r, fun hb _ => hb, id, rfl⟩

theorem exec_ne_refused (i : Instr) (s : State) (r : Refusal) : exec i s ≠ .refused r := by
  intro h
  rcases exec_answers_or_illegal i s with ⟨t, ht⟩ | ⟨-, hf⟩
  · rw [ht] at h; cases h
  · rw [hf] at h; cases h

/-- Everything a Step that stops can have done. -/
theorem step_fault_cases {s : State} {f : Fault} (h : step s = .fault f) :
    s.Ready ∧ exec (decodeWord s.fetch) s.advance = .fault f := by
  by_cases h0 : s.fault.code = 0
  · rcases fetchFault_or_ready h0 with ⟨c, hc⟩ | hs
    · rw [step_fetchFault h0 hc] at h; cases h
    · rw [step_ready hs] at h
      cases hu : exec (decodeWord s.fetch) s.advance with
      | next u => rw [hu] at h; cases h
      | fault f' => rw [hu] at h; injection h with h; exact ⟨hs, by rw [h]⟩
      | refused r => rw [hu] at h; cases h
  · rw [step_faulted h0] at h; cases h

theorem step_ne_refused (s : State) (r : Refusal) : step s ≠ .refused r := by
  intro h
  by_cases h0 : s.fault.code = 0
  · rcases fetchFault_or_ready h0 with ⟨c, hc⟩ | hs
    · rw [step_fetchFault h0 hc] at h; cases h
    · rw [step_ready hs] at h
      cases hu : exec (decodeWord s.fetch) s.advance with
      | next u => rw [hu] at h; cases h
      | fault f => rw [hu] at h; cases h
      | refused r' => exact exec_ne_refused _ _ _ hu
  · rw [step_faulted h0] at h; cases h

theorem State.Ready.withInputs {s : State} (h : s.Ready) (b : Byte) (k : Vector Bool 16) (r : Option Byte) :
    (s.withInputs b k r).Ready := ⟨h.noFault, h.low, h.high, h.even⟩

section Noninterference

variable {s : State} {b : Byte} {k : Vector Bool 16} {r : Option Byte}
  (hk : (decodeWord s.fetch).readsKey = true → k = s.key) (hr : (decodeWord s.fetch).readsRand = true → r = s.randArg)

include hk hr

theorem step_withInputs_fault {f : Fault} (h : step s = .fault f) : step (s.withInputs b k r) = .fault f := by
  obtain ⟨hs, hf⟩ := step_fault_cases h
  have hexec := exec_withInputs (s := s.advance) (b := b) hk hr
  rw [hf] at hexec
  rw [step_ready (hs.withInputs b k r)]
  exact congrArg (finishOutcome _) hexec

/-- A Step is the same whatever ST, and whatever KEY and RAND where its instruction does not read them. -/
theorem step_withInputs_next {t : State} (h : step s = .next t) :
    ∃ b' r', (b = s.st → b' = t.st) ∧ (r = s.randArg → r' = t.randArg) ∧
      step (s.withInputs b k r) = .next (t.withInputs b' k r') := by
  rcases step_cases h with ⟨hf, rfl⟩ | ⟨h0, c, hc, rfl⟩ | ⟨hs, u, hu, rfl⟩
  · exact ⟨b, r, id, id, step_faulted (s := t.withInputs b k r) hf⟩
  · exact ⟨b, r, id, id, step_fetchFault (s := s.withInputs b k r) h0 hc⟩
  · have hexec := exec_withInputs (s := s.advance) (b := b) hk hr
    rw [hu] at hexec
    obtain ⟨b', r', hb', hr', hfin⟩ :=
      finish_withInputs s u b (stBeforeTick (decodeWord s.fetch) { s.advance with st := b }) k r
    refine ⟨b', r', fun hb => hb' hb ?_, hr', ?_⟩
    · subst hb
      exact (exec_advance_timers hu).2.symm
    · rw [← hfin]
      exact step_ready_next (hs.withInputs b k r) hexec

end Noninterference

theorem step_key {s t : State} (h : step s = .next t) : t.key = s.key := by
  rcases step_cases h with ⟨-, rfl⟩ | ⟨-, c, -, rfl⟩ | ⟨hs, -⟩
  · rfl
  · rfl
  · obtain ⟨-, -, -, -, -, hkey⟩ := onlyTheListedInstructionsWrite s t hs h
    exact hkey

/-- Settles O16: no instruction reads ST, so a Step takes any ST in place of the old one; KEY and RAND stay. -/
theorem noStepDependsOnSt : Obligations.NoStepDependsOnSt := by
  refine fun s b => ⟨fun t h => ?_, fun f h => ?_⟩
  · obtain ⟨b', r', -, hr', hstep⟩ := step_withInputs_next (b := b) (fun _ => rfl) (fun _ => rfl) h
    obtain rfl := hr' rfl
    have hnext : t.withInputs b' s.key t.randArg = { t with st := b' } := by rw [← step_key h]; rfl
    rw [hnext] at hstep
    exact ⟨b', hstep⟩
  · exact step_withInputs_fault (b := b) (fun _ => rfl) (fun _ => rfl) h

/-- Settles O17: an instruction that does not read KEY takes any KEY in place of the old one; ST and RAND stay. -/
theorem onlyKeyInstructionsDependOnKey : Obligations.OnlyKeyInstructionsDependOnKey := by
  intro s k hread
  have hk : (decodeWord s.fetch).readsKey = true → k = s.key := fun h => by rw [hread] at h; cases h
  refine ⟨fun t h => ?_, fun f h => ?_⟩
  · obtain ⟨b', r', hb', hr', hstep⟩ := step_withInputs_next hk (fun _ => rfl) h
    obtain rfl := hb' rfl
    obtain rfl := hr' rfl
    exact hstep
  · exact step_withInputs_fault hk (fun _ => rfl) h

/-- Settles O15: an instruction that does not use RAND takes any RAND in place of the old one, and the host's
call clears what is left of it. -/
theorem onlyRndDependsOnRand : Obligations.OnlyRndDependsOnRand := by
  intro s a a' hread
  have hr : (decodeWord (s.setRand (some a)).fetch).readsRand = true → some a' = (s.setRand (some a)).randArg :=
    fun h => by rw [show (s.setRand (some a)).fetch = s.fetch from rfl, hread] at h; cases h
  unfold stepWith
  cases h : step (s.setRand (some a)) with
  | next t =>
    obtain ⟨b', r', hb', -, hstep⟩ := step_withInputs_next (b := s.st) (fun _ => rfl) hr h
    obtain rfl := hb' rfl
    have hnext : t.withInputs t.st (s.setRand (some a)).key r' = t.setRand r' := by rw [← step_key h]; rfl
    have hstep' : step (s.setRand (some a')) = .next (t.setRand r') := by rw [← hnext]; exact hstep
    rw [hstep']
    rfl
  | fault f =>
    have hstep : step (s.setRand (some a')) = .fault f := step_withInputs_fault (b := s.st) (fun _ => rfl) hr h
    rw [hstep]
  | refused r => exact absurd h (step_ne_refused _ r)

end Sys2Proof.Machine

/-! ### The Step around exec (spec/40_cycle.md R100 to R112) -/

namespace Sys2Proof.Machine

theorem tick_spendDraw_eq (t : State) :
    t.tick.spendDraw = { t with
      dt := if t.dt = 0 then 0 else t.dt - 1, st := if t.st = 0 then 0 else t.st - 1,
      randArg := none, rngDraws := t.rngDraws + 1 } := rfl

/-- Settles O7: the two bytes decode to the word that the Step fetches, and `finish` ends the Step. -/
theorem stepRunsTheDecodedInstruction : Obligations.StepRunsTheDecodedInstruction := by
  intro s i hs hdecode
  injection hdecode with hdecode
  injection hdecode with hi
  subst hi
  refine ⟨fun t ht h0 => ?_, fun t ht h0 => ?_, fun r hr => ?_, exec_ne_refused _ _⟩
  · rw [step_ready_next hs ht, State.finish_ok h0, tick_spendDraw_eq]
  · rw [step_ready_next hs ht, State.finish_faulted h0]
  · rw [step_ready hs]
    exact congrArg (finishOutcome s) hr

/-- Step(RAND) is a Step with that RAND, and its result is read from the state the Step leaves. -/
theorem hostApply_step {s t : State} {rand : Byte} (h : step (s.setRand (some rand)) = .next t) :
    hostApply (.step rand) s = .next (t.setRand none, t.stepResult) := by
  rw [hostApply, stepWith, h]

theorem State.stepResult_ok {t : State} (h : t.fault.code = 0) : t.stepResult = .ok := by
  rw [State.stepResult, if_neg (by simp [h])]

theorem State.stepResult_fault {t : State} (h : t.fault.code ≠ 0) : t.stepResult = .fault t.fault.code := by
  rw [State.stepResult, if_pos (t.faulted_iff.mpr h)]

/-- Settles O55: `stepResult` reads the code of the state that the Step leaves. -/
theorem stepReturnsOkOrTheFaultCode : Obligations.StepReturnsOkOrTheFaultCode := by
  refine fun s t rand h => ⟨fun h0 => ?_, fun h0 => ?_⟩
  · rw [hostApply_step h, State.stepResult_ok h0, State.setRand]
  · rw [hostApply_step h, State.stepResult_fault h0, State.setRand]

/-- Settles O8: the fault gate, for a bare Step and for the host's. -/
theorem faultedCoreIsHalted : Obligations.FaultedCoreIsHalted := by
  refine fun s h => ⟨step_faulted h, fun rand => ?_⟩
  have hgate : step (s.setRand (some rand)) = .next (s.setRand (some rand)) := step_faulted h
  rw [hostApply_step hgate, State.stepResult_fault (t := s.setRand (some rand)) h]
  rfl

theorem fetchFault_range {pc : Word} (h : pc.toNat < 0x200 ∨ 0xFFE < pc.toNat) :
    fetchFault pc = some .pcOutOfRange := by rw [fetchFault, if_pos h]

theorem fetchFault_odd {pc : Word} (hlo : 0x200 ≤ pc.toNat) (hhi : pc.toNat ≤ 0xFFE) (hodd : pc.toNat % 2 = 1) :
    fetchFault pc = some .pcMisaligned := by rw [fetchFault, if_neg (by omega), if_pos hodd]

/-- Settles O9: the range is checked before the alignment, and the fault is taken at once. -/
theorem fetchCheckFaults : Obligations.FetchCheckFaults := by
  refine fun s h0 => ⟨fun hrange => ?_, fun hlo hhi hodd => ?_⟩
  · rw [step_fetchFault h0 (fetchFault_range hrange), BitVec.ofNat_toNat]; rfl
  · rw [step_fetchFault h0 (fetchFault_odd hlo hhi hodd), BitVec.ofNat_toNat]; rfl

end Sys2Proof.Machine

/-! ### The stack and the jumps (spec/42_control.md) -/

namespace Sys2Proof.Machine

theorem decodeWord_wordA_1 (nnn : Addr) : decodeWord (wordA 1 nnn) = .jp nnn := by
  rw [wordA_eq (by decide)]
  exact Laws.RoundTrip.jp nnn rfl

theorem decodeWord_wordA_2 (nnn : Addr) : decodeWord (wordA 2 nnn) = .call nnn := by
  rw [wordA_eq (by decide)]
  exact Laws.RoundTrip.call nnn rfl

theorem decodeWord_wordA_A (nnn : Addr) : decodeWord (wordA 0xA nnn) = .ldI nnn := by
  rw [wordA_eq (by decide)]
  exact Laws.RoundTrip.ldI nnn rfl

theorem decodeWord_wordA_B (nnn : Addr) : decodeWord (wordA 0xB nnn) = .jpV0 nnn := by
  rw [wordA_eq (by decide)]
  exact Laws.RoundTrip.jpV0 nnn rfl

/-- 00EE with an entry in use pops it. -/
theorem exec_ret_pops {s : State} (j : Fin 16) (h : s.sp.toNat = j.val + 1) :
    exec .ret s = .next { s with sp := BitVec.ofNat 8 j.val, pc := s.stack[j] } := by
  have h0 : s.sp ≠ 0 := fun e => by rw [e] at h; exact absurd h (Nat.succ_ne_zero _).symm
  rw [exec, execRet, if_neg h0, s.pop_eq j h]
  rfl

theorem exec_ret_underflow {s : State} (h : s.sp = 0) : exec .ret s = .next (raised 4 0 s) := by
  rw [exec, execRet, if_pos h, h]; rfl

/-- Settles O26: the pop, and the check before it. -/
theorem retPopsOrUnderflows : Obligations.RetPopsOrUnderflows :=
  ⟨by decide, fun _ => ⟨exec_ret_pops, exec_ret_underflow⟩⟩

theorem exec_call_pushes (nnn : Addr) {s : State} (h : s.sp.toNat < 16) :
    exec (.call nnn) s = .next ((s.push s.pc).setPc (zextAddr nnn)) := by
  have h16 : s.sp ≠ 16 := fun e => by rw [e] at h; exact absurd h (by decide)
  rw [exec, execCall, if_neg h16, if_pos h]

theorem exec_call_overflow (nnn : Addr) {s : State} (h : s.sp = 16) : exec (.call nnn) s = .next (raised 3 16 s) := by
  rw [exec, execCall, if_pos h, h]; rfl

/-- Settles O27: the push writes the entry at SP, and the jump PC. -/
theorem callPushesOrOverflows : Obligations.CallPushesOrOverflows := by
  refine fun nnn => ⟨decodeWord_wordA_2 nnn, fun s => ⟨fun j hj => ?_, exec_call_overflow nnn⟩⟩
  have hlt : s.sp.toNat < 16 := by omega
  refine ⟨_, exec_call_pushes nnn hlt, ?entry, fun k hk => ?others, ?sp, zextAddr_toNat nnn, rfl⟩
  case entry => rw [State.setPc_stack, State.push_stack_get, if_pos hj]
  case others => rw [State.setPc_stack, State.push_stack_get, if_neg fun e => hk (Fin.ext (e.symm.trans hj))]
  case sp => rw [State.setPc_sp, State.push_sp_toNat hlt, hj]

/-- Settles O29: the call puts the address after it on top of the stack, and the return takes it from there. -/
theorem retUndoesCall : Obligations.RetUndoesCall := by
  intro s t nnn p hlt h
  rw [exec_call_pushes nnn hlt] at h
  injection h with h
  have htop : t.sp.toNat = s.sp.toNat + 1 := by rw [← h, State.setPc_sp, State.push_sp_toNat hlt]
  have hentry : t.stack[(⟨s.sp.toNat, hlt⟩ : Fin 16)] = s.pc := by
    rw [← h, State.setPc_stack, State.push_stack_get, if_pos rfl]
  rw [exec_ret_pops (s := { t with pc := p }) ⟨s.sp.toNat, hlt⟩ htop]
  simp only [hentry, BitVec.ofNat_toNat, BitVec.setWidth_eq]

/-- Settles O30: a 12-bit address fits PC. -/
theorem jpJumpsToTheAddress : Obligations.JpJumpsToTheAddress := fun nnn =>
  ⟨decodeWord_wordA_1 nnn, fun s => ⟨s.setPc (zextAddr nnn), rfl, zextAddr_toNat nnn, rfl⟩⟩

/-- Settles O31: the sum of a byte and a 12-bit address does not wrap. -/
theorem jpV0AddsV0 : Obligations.JpV0AddsV0 := fun nnn =>
  ⟨decodeWord_wordA_B nnn, fun s => ⟨s.setPc (zextByte (s.getV v0) + zextAddr nnn), rfl,
    zextByte_add_zextAddr_toNat (s.getV 0) nnn, rfl⟩⟩

end Sys2Proof.Machine

/-! ### Arithmetic with a flag, and RND (spec/43_alu.md R156 to R161) -/

namespace Sys2Proof.Machine

theorem decodeWord_wordXYN_8_4 (x y : Reg) : decodeWord (wordXYN 8 x y 4) = .addReg x y := by
  rw [wordXYN_eq (by decide)]
  exact Laws.RoundTrip.addReg x y rfl

theorem decodeWord_wordXYN_8_5 (x y : Reg) : decodeWord (wordXYN 8 x y 5) = .sub x y := by
  rw [wordXYN_eq (by decide)]
  exact Laws.RoundTrip.sub x y rfl

theorem decodeWord_wordXYN_8_6 (x y : Reg) : decodeWord (wordXYN 8 x y 6) = .shr x y := by
  rw [wordXYN_eq (by decide)]
  exact Laws.RoundTrip.shr x y rfl

theorem decodeWord_wordXYN_8_7 (x y : Reg) : decodeWord (wordXYN 8 x y 7) = .subn x y := by
  rw [wordXYN_eq (by decide)]
  exact Laws.RoundTrip.subn x y rfl

theorem decodeWord_wordXYN_8_E (x y : Reg) : decodeWord (wordXYN 8 x y 0xE) = .shl x y := by
  rw [wordXYN_eq (by decide)]
  exact Laws.RoundTrip.shl x y rfl

theorem decodeWord_wordXK_C (x : Reg) (kk : Byte) : decodeWord (wordXK 0xC x kk) = .rnd x kk := by
  rw [wordXK_eq (by decide)]
  exact Laws.RoundTrip.rnd x kk rfl

/-! Each of the five is one result with a flag. -/

theorem exec_addReg (x y : Reg) (s : State) : exec (.addReg x y) s =
    .next (s.setResultFlag x (s.getV x + s.getV y) (carryOf (s.getV x) (s.getV y))) := rfl

theorem exec_sub (x y : Reg) (s : State) : exec (.sub x y) s =
    .next (s.setResultFlag x (s.getV x - s.getV y) (greater (s.getV x) (s.getV y))) := rfl

theorem exec_subn (x y : Reg) (s : State) : exec (.subn x y) s =
    .next (s.setResultFlag x (s.getV y - s.getV x) (greater (s.getV y) (s.getV x))) := rfl

theorem exec_shr (x y : Reg) (s : State) : exec (.shr x y) s =
    .next (s.setResultFlag x (s.getV x >>> 1) (outRight (s.getV x))) := rfl

theorem exec_shl (x y : Reg) (s : State) : exec (.shl x y) s =
    .next (s.setResultFlag x (s.getV x <<< 1) (outLeft (s.getV x))) := rfl

/-- The result stands in V[x], but in VF, where the flag is written over it. -/
theorem State.getV_setResultFlag_result {x : Reg} (hx : x ≠ 15) (s : State) (b : Byte) (c : Bool) :
    (s.setResultFlag x b c).getV x = b := by
  rw [State.getV_setResultFlag, if_neg hx, if_pos rfl]

theorem State.getV_setResultFlag_flag (s : State) (x : Reg) (b : Byte) (c : Bool) :
    ((s.setResultFlag x b c).getV 15).toNat = if c then 1 else 0 := by
  rw [State.getV_setResultFlag, if_pos rfl, flagByte_toNat]

/-- Settles O39: the sum of two bytes wraps, its carry does not, and the flag is written last. -/
theorem addRegSumsAndCarries : Obligations.AddRegSumsAndCarries := by
  refine fun x y => ⟨decodeWord_wordXYN_8_4 x y, fun s =>
    ⟨_, exec_addReg x y s, fun hx => ?sum, ?carry, OnlyVAndFlag_setResultFlag s x _ _⟩⟩
  case sum => rw [State.getV_setResultFlag_result hx, BitVec.toNat_add]
  case carry => rw [State.getV_setResultFlag_flag, carryOf]; simp only [decide_eq_true_eq]

/-- A difference of bytes is the integer difference modulo 256. -/
theorem sub_toNat_int (a b : Byte) : ((a - b).toNat : Int) = (a.toNat - b.toNat : Int) % 256 := by
  have := a.isLt; have := b.isLt
  rw [BitVec.toNat_sub]; omega

theorem flag_greater_toNat (s : State) (x : Reg) (r a b : Byte) :
    ((s.setResultFlag x r (greater a b)).getV 15).toNat = if a.toNat > b.toNat then 1 else 0 := by
  rw [State.getV_setResultFlag_flag, greater]; simp only [decide_eq_true_eq]

/-- Settles O40: one argument for both orders of the operands. -/
theorem subtractionsWrapAndCompareStrictly : Obligations.SubtractionsWrapAndCompareStrictly := by
  refine fun x y => ⟨decodeWord_wordXYN_8_5 x y, decodeWord_wordXYN_8_7 x y, fun s =>
    ⟨⟨_, exec_sub x y s, fun hx => ?sub, flag_greater_toNat s x _ _ _, OnlyVAndFlag_setResultFlag s x _ _⟩,
      ⟨_, exec_subn x y s, fun hx => ?subn, flag_greater_toNat s x _ _ _, OnlyVAndFlag_setResultFlag s x _ _⟩⟩⟩
  case sub => rw [State.getV_setResultFlag_result hx, sub_toNat_int]
  case subn => rw [State.getV_setResultFlag_result hx, sub_toNat_int]

theorem outRight_toNat (a : Byte) : (if outRight a then 1 else 0) = a.toNat % 2 := by
  rw [outRight, BitVec.getLsbD, Nat.testBit_zero]
  simp only [decide_eq_true_eq]
  split <;> omega

theorem outLeft_toNat (a : Byte) : (if outLeft a then 1 else 0) = a.toNat / 128 := by
  have := a.isLt
  rw [outLeft, BitVec.getLsbD, Nat.testBit_eq_decide_div_mod_eq]
  simp only [decide_eq_true_eq]
  split <;> omega

theorem shiftRight_one_toNat (a : Byte) : (a >>> 1).toNat = a.toNat / 2 := by
  rw [BitVec.toNat_ushiftRight, Nat.shiftRight_eq_div_pow, pow_one]

theorem shiftLeft_one_toNat (a : Byte) : (a <<< 1).toNat = 2 * a.toNat % 256 := by
  rw [BitVec.toNat_shiftLeft, Nat.shiftLeft_eq, pow_one, Nat.mul_comm]

/-- Settles O41: neither meaning mentions y. -/
theorem shiftsMoveOneBitIntoTheFlag : Obligations.ShiftsMoveOneBitIntoTheFlag := by
  refine fun x y => ⟨decodeWord_wordXYN_8_6 x y, decodeWord_wordXYN_8_E x y, fun s =>
    ⟨⟨_, fun z => exec_shr x z s, fun hx => ?right, ?outRight, OnlyVAndFlag_setResultFlag s x _ _⟩,
      ⟨_, fun z => exec_shl x z s, fun hx => ?left, ?outLeft, OnlyVAndFlag_setResultFlag s x _ _⟩⟩⟩
  case right => rw [State.getV_setResultFlag_result hx, shiftRight_one_toNat]
  case outRight => rw [State.getV_setResultFlag_flag, outRight_toNat]
  case left => rw [State.getV_setResultFlag_result hx, shiftLeft_one_toNat]
  case outLeft => rw [State.getV_setResultFlag_flag, outLeft_toNat]

theorem exec_rnd (x : Reg) (kk : Byte) (s : State) : exec (.rnd x kk) s = .next (s.setV x (s.rand &&& kk)) := rfl

/-- A byte with no bit outside the mask is its own masked value. -/
theorem and_mask_eq_self {v kk : Byte} (h : v &&& ~~~kk = 0) : v &&& kk = v := by
  calc v &&& kk = (v &&& kk) ||| (v &&& ~~~kk) := by rw [h]; simp
    _ = v &&& BitVec.allOnes 8 := by rw [← BitVec.and_or_distrib_left, BitVec.or_not_self]
    _ = v := BitVec.and_allOnes

/-- Settles O42: the draw is what the host named, so that a value under the mask is drawn by naming it. -/
theorem rndMasksTheDraw : Obligations.RndMasksTheDraw := by
  refine fun x kk => ⟨decodeWord_wordXK_C x kk, fun s => ⟨?free, fun r => ?named, fun v hv => ?possible⟩⟩
  case free => exact ⟨_, exec_rnd x kk s, State.getV_setV_self _ _ _, OnlyV_setV s x _⟩
  case named => exact ⟨_, exec_rnd x kk _, State.getV_setV_self _ _ _⟩
  case possible =>
    refine ⟨v, _, exec_rnd x kk _, ?_⟩
    rw [State.getV_setV_self]
    exact and_mask_eq_self hv

end Sys2Proof.Machine

/-! ### I, the keypad and the timers (spec/44_index_memory.md, spec/45_keypad_timers.md) -/

namespace Sys2Proof.Machine

theorem decodeWord_wordXK_F1E (x : Reg) : decodeWord (wordXK 0xF x 0x1E) = .addIVx x := by
  rw [wordXK_eq (by decide)]
  exact Laws.RoundTrip.addIVx x rfl

theorem decodeWord_wordXK_F29 (x : Reg) : decodeWord (wordXK 0xF x 0x29) = .ldFVx x := by
  rw [wordXK_eq (by decide)]
  exact Laws.RoundTrip.ldFVx x rfl

theorem decodeWord_wordXK_E9E (x : Reg) : decodeWord (wordXK 0xE x 0x9E) = .skp x := by
  rw [wordXK_eq (by decide)]
  exact Laws.RoundTrip.skp x rfl

theorem decodeWord_wordXK_EA1 (x : Reg) : decodeWord (wordXK 0xE x 0xA1) = .sknp x := by
  rw [wordXK_eq (by decide)]
  exact Laws.RoundTrip.sknp x rfl

theorem decodeWord_wordXK_F07 (x : Reg) : decodeWord (wordXK 0xF x 0x07) = .ldVxDt x := by
  rw [wordXK_eq (by decide)]
  exact Laws.RoundTrip.ldVxDt x rfl

theorem decodeWord_wordXK_F0A (x : Reg) : decodeWord (wordXK 0xF x 0x0A) = .ldVxK x := by
  rw [wordXK_eq (by decide)]
  exact Laws.RoundTrip.ldVxK x rfl

theorem decodeWord_wordXK_F15 (x : Reg) : decodeWord (wordXK 0xF x 0x15) = .ldDtVx x := by
  rw [wordXK_eq (by decide)]
  exact Laws.RoundTrip.ldDtVx x rfl

theorem decodeWord_wordXK_F18 (x : Reg) : decodeWord (wordXK 0xF x 0x18) = .ldStVx x := by
  rw [wordXK_eq (by decide)]
  exact Laws.RoundTrip.ldStVx x rfl

theorem addI_toNat (i : Word) (b : Byte) : (i + zextByte b).toNat = (i.toNat + b.toNat) % 65536 := by
  rw [BitVec.toNat_add, zextByte_toNat]

/-- The glyph address of any byte lies far below the modulus. -/
theorem glyphAddress_toNat (b : Byte) : (glyphAddress b).toNat = 0x050 + 5 * b.toNat := by
  have := b.isLt
  rw [glyphAddress, BitVec.toNat_add, BitVec.toNat_mul, zextByte_toNat]
  simp; omega

/-- Settles O43: three writes of I, each with the number it writes. -/
theorem indexInstructionsWriteI : Obligations.IndexInstructionsWriteI := by
  refine ⟨fun nnn => ⟨decodeWord_wordA_A nnn, fun s => ?ldI⟩, fun x =>
    ⟨decodeWord_wordXK_F1E x, decodeWord_wordXK_F29 x, fun s => ⟨?addI, ?ldF⟩⟩⟩
  case ldI => exact ⟨s.setI (zextAddr nnn), rfl, zextAddr_toNat nnn, rfl⟩
  case addI => exact ⟨s.setI (s.i + zextByte (s.getV x)), rfl, addI_toNat s.i (s.getV x), rfl⟩
  case ldF => exact ⟨s.setI (glyphAddress (s.getV x)), rfl, glyphAddress_toNat (s.getV x), rfl⟩

theorem State.keyAt_of_lt {s : State} {b : Byte} (k : Fin 16) (h : b.toNat = k.val) : s.keyAt b = some s.key[k] := by
  rw [State.keyAt, h]; simp

theorem State.keyAt_of_ge {s : State} {b : Byte} (h : 15 < b.toNat) : s.keyAt b = none :=
  Vector.getElem?_eq_none_iff.mpr h

/-- Settles O48: KEY lists a key for each number below 16 and for no other. -/
theorem keySkipsTestTheKey : Obligations.KeySkipsTestTheKey := by
  refine fun x => ⟨decodeWord_wordXK_E9E x, decodeWord_wordXK_EA1 x, fun s => ⟨fun k hk => ?_, fun hk => ?_⟩⟩
  · have hkey : s.keyAt (s.getV x) = some s.key[k] := State.keyAt_of_lt k hk
    rw [exec, exec, execSkp, execSknp, hkey]
    simp only [State.skipIf_eq, Bool.not_eq_true', ← Bool.not_eq_true, ite_not, and_self]
  · have hkey : s.keyAt (s.getV x) = none := State.keyAt_of_ge hk
    rw [exec, exec, execSkp, execSknp, hkey]
    exact ⟨rfl, rfl⟩

theorem exec_ldVxDt (x : Reg) (s : State) : exec (.ldVxDt x) s = .next (s.setV x s.dt) := rfl

/-- Settles O49: the one write of DT to V[x]. -/
theorem ldFromDtCopiesTheTimer : Obligations.LdFromDtCopiesTheTimer := fun x =>
  ⟨decodeWord_wordXK_F07 x, fun s =>
    ⟨_, exec_ldVxDt x s, s.getV_setV_self x _, OnlyV_setV s x _⟩⟩

/-- Settles O51: the words decode by the round trip, and each meaning is the one write of a timer. -/
theorem timerLoadsWriteTheTimer : Obligations.TimerLoadsWriteTheTimer := fun x =>
  ⟨decodeWord_wordXK_F15 x, decodeWord_wordXK_F18 x, fun _ => ⟨rfl, rfl⟩⟩

/-- A pressed key with none pressed below it is the least. -/
theorem State.lowestKey_eq_some {s : State} {k : Fin 16} (hk : s.key[k] = true)
    (hlow : ∀ j : Fin 16, j < k → s.key[j] = false) : s.lowestKey = some k := by
  refine List.find?_eq_some_iff_getElem.mpr ⟨hk, k.val, by simp, by simp, fun j hj => ?_⟩
  rw [List.getElem_finRange, Bool.not_eq_true']
  exact hlow ⟨j, by omega⟩ hj

theorem State.lowestKey_eq_none {s : State} (h : ∀ j : Fin 16, s.key[j] = false) : s.lowestKey = none := by
  rw [State.lowestKey, List.find?_eq_none]
  intro j _ hj
  rw [h j] at hj
  cases hj

/-- Settles O50: the search over the keys finds the least pressed one, or none. -/
theorem keyWaitTakesTheLeastKeyOrRepeats : Obligations.KeyWaitTakesTheLeastKeyOrRepeats := by
  refine fun x => ⟨decodeWord_wordXK_F0A x, fun s => ⟨fun k hk hlow => ?_, fun hnone => ?_⟩⟩
  · rw [exec, execLdVxK, State.lowestKey_eq_some hk hlow]
    exact ⟨_, rfl, by rw [State.getV_setV_self, toNat_ofNat_of_lt (by omega)], OnlyV_setV s x _⟩
  · rw [exec, execLdVxK, State.lowestKey_eq_none hnone]
    rfl

end Sys2Proof.Machine

/-! ### Reset and the host (spec/10_state.md sections 13 and 14, spec/70_reset_and_hazards.md) -/

namespace Sys2Proof.Machine

/-- Settles O53: memory after an accepted ROM is read byte by byte. -/
theorem loadRomCopiesOrRejects : Obligations.LoadRomCopiesOrRejects := by
  refine fun s bytes => ⟨fun hlen => ?accepted, fun hlen => ?rejected⟩
  case rejected => rw [hostApply, State.loadRom, if_pos hlen]
  case accepted =>
    refine ⟨s.setMem (s.mem.writeBytes 0x200 bytes), ?_, fun k hk => ?_, fun a ha => ?_, rfl⟩
    · rw [hostApply, State.loadRom, if_neg (by omega)]
    · rw [State.setMem_mem, Memory.read_writeBytes_inside _ _ hk, List.getD_eq_getElem _ _ hk]
    · exact Memory.read_writeBytes_outside ha

theorem resetByte_outside {a : Nat} (h : a < 0x050 ∨ 0x09F < a) : Memory.resetByte a = 0 := by
  rw [Memory.resetByte, if_neg (by omega)]

/-- After Reset the FONT stands at 0x050 to 0x09F. -/
theorem resetWith_read_font (font : Vector Byte 80) (seed : Nat) (k : Fin 80) :
    (State.resetWith font seed).mem.read (0x050 + k.val) = font[k] := by
  have hk : k.val < font.toList.length := by rw [Vector.length_toList]; exact k.isLt
  change (Memory.writeBytes [] 0x050 font.toList).read (0x050 + k.val) = font[k]
  rw [Memory.read_writeBytes_inside _ _ hk, List.getD_eq_getElem _ _ hk, Vector.getElem_toList]
  rfl

/-- Every other byte is 0 after Reset. -/
theorem resetWith_read_outside (font : Vector Byte 80) (seed : Nat) {a : Nat} (h : a < 0x050 ∨ 0x09F < a) :
    (State.resetWith font seed).mem.read a = 0 := by
  change (Memory.writeBytes [] 0x050 font.toList).read a = 0
  rw [Memory.read_writeBytes_outside (by rw [Vector.length_toList]; omega), Memory.read_nil, resetByte_outside h]

/-- At the default FONT the stored bytes are those an unlisted address reads as, so memory lists nothing. -/
theorem writeBytes_fontDefault : Memory.writeBytes [] 0x050 fontDefault = [] := by
  have hlen : fontDefault.length = 80 := rfl
  refine equalReadsMeanEqualMemories _ _ (Memory.wf_writeBytes rfl (by rw [hlen]; decide)) rfl fun a => ?_
  rw [Memory.read_writeBytes, Memory.read_nil, hlen, Memory.resetByte]
  split <;> rfl

/-- Settles O52: Reset builds its state from constants, FONT and SEED; memory is read byte by byte. -/
theorem resetLeavesTheResetValues : Obligations.ResetLeavesTheResetValues := by
  refine ⟨fun font seed s => ⟨State.resetWith font seed, rfl, ?regs, rfl, rfl, rfl, ?stack, rfl, rfl, ?key, ?pixels,
    resetWith_read_font font seed, fun a ha => resetWith_read_outside font seed ha, rfl, rfl⟩, fun _ _ _ _ => rfl,
    fun font hfont seed => ?default⟩
  case regs => exact fun r => Vector.getElem_replicate r.isLt
  case stack => exact fun j => Vector.getElem_replicate j.isLt
  case key => exact fun k => Vector.getElem_replicate k.isLt
  case pixels => exact FrameBuffer.pixel_blank
  case default =>
    have hmem : State.reset.mem.writeBytes 0x050 font.toList = State.reset.mem := by
      rw [hfont]; exact writeBytes_fontDefault
    rw [State.resetWith, hmem]

/-- Rows of one length laid one after another: entry c of row r stands at r * n + c. -/
theorem getElem?_flatMap_of_length {α β : Type} {rows : List α} {f : α → List β} {n : Nat}
    (hlen : ∀ a ∈ rows, (f a).length = n) {r c : Nat} (hr : r < rows.length) (hc : c < n) :
    (rows.flatMap f)[r * n + c]? = (f rows[r])[c]? := by
  induction rows generalizing r with
  | nil => cases hr
  | cons a rows ih =>
    have ha : (f a).length = n := hlen a List.mem_cons_self
    rw [List.flatMap_cons]
    cases r with
    | zero => rw [Nat.zero_mul, Nat.zero_add, List.getElem?_append_left (by omega)]; rfl
    | succ r =>
      have hidx : (r + 1) * n + c - (f a).length = r * n + c := by rw [ha, Nat.succ_mul]; omega
      rw [List.getElem?_append_right (by rw [ha, Nat.succ_mul]; omega), hidx]
      exact ih (fun b hb => hlen b (List.mem_cons_of_mem a hb)) (Nat.lt_of_succ_lt_succ hr)

theorem length_hostRow (row : Vector Bool 64) : (row.toList.map hostPixel).length = 64 := by
  rw [List.length_map, Vector.length_toList]

theorem FrameBuffer.length_words (f : FrameBuffer) : f.words.length = 2048 := by
  rw [FrameBuffer.words, List.length_flatMap, List.map_congr_left fun row _ => length_hostRow row, List.map_const',
    Vector.length_toList]
  rfl

/-- The word of the pixel at row r, column c. -/
theorem FrameBuffer.words_getElem? (f : FrameBuffer) {r c : Nat} (hr : r < 32) (hc : c < 64) :
    f.words[r * 64 + c]? = some (hostPixel (f.pixel r c)) := by
  rw [FrameBuffer.words, getElem?_flatMap_of_length (fun row _ => length_hostRow row) (by simpa using hr) hc,
    FrameBuffer.pixel, dif_pos ⟨hc, hr⟩]
  simp [hc]

/-- Settles O54: the words of `view` are found by row and column. -/
theorem hostSetsKeysAndReadsTheScreen : Obligations.HostSetsKeysAndReadsTheScreen := fun s =>
  ⟨fun _ => rfl, s.view, rfl, rfl, rfl, s.fb.length_words, fun _ _ hr hc => s.fb.words_getElem? hr hc⟩

end Sys2Proof.Machine
